-- ==== Sys2Proof/Word.lean ====
section
/-! DEFINITION. The word and byte types of the EFS core and the named Words of the spec
(00_scope.md R8, R9; 10_state.md R25; log 14). -/

namespace Sys2Proof

/-- One byte of the code memory (20_memory.md R40). -/
abbrev Byte := BitVec 8

/-- A Word: a canonical unsigned value in `[0, 2^256)` (10_state.md R25). -/
abbrev Word := BitVec 256

/-- `M = 2^256`, the modulus of the Word (00_scope.md R8). -/
def modulus : Nat := 2 ^ 256

/-- `MAXW = 2^256 - 1`, the signed value -1 (00_scope.md R8). -/
def maxW : Word := BitVec.ofNat 256 (2 ^ 256 - 1)

/-- `MINS = 2^255`, the Word with only bit 255 set (00_scope.md R8). -/
def minS : Word := BitVec.ofNat 256 (2 ^ 255)

end Sys2Proof
end

