-- ==== Sys2Proof/Config.lean ====
section
/-! DEFINITION. What an implementation fixes (00_scope.md R7), the closed enumeration of OpCodes that the
opcode map ranges over (30_encoding.md R64), and the free values of the model (log 5). -/

namespace Sys2Proof

/-- OpCode: "a closed enumeration of recognized instruction mnemonics" (30_encoding.md R64; the 25 of
00_scope.md R3). -/
inductive OpCode where
  | stop | add | mul | sub | div | sdiv | mod | smod | addmod | mulmod | exp | signextend
  | lt | gt | slt | sgt | pop
  | push0 | push1 | push2 | push4 | push6 | push10 | push11 | push32
deriving DecidableEq, Repr

namespace Config

/-- The type of `OPMAP`: which byte stands for which OpCode (00_scope.md R7, 30_encoding.md R63). The decoder and
the encoder take it as an argument; the spec's default table is `Sys2Proof.opmap` in Decode.lean. -/
abbrev OpMap := List (Byte × OpCode)

/-- An `OPMAP` an implementation may have: every OpCode has a byte, and "no two mnemonics share a byte"
(30_encoding.md R63): each of the 25 OpCodes stands once, and each byte stands once. -/
def OpMap.Proper (m : OpMap) : Prop :=
  (m.map Prod.fst).Nodup ∧ (m.map Prod.snd).Nodup ∧ ∀ op : OpCode, op ∈ m.map Prod.snd

/-- The longest instruction in bytes: PUSH32, one opcode byte and 32 immediate bytes (30_encoding.md R60). -/
def maxInstrBytes : Nat := 33

/-- `TRUNC_PUSH`: "what a PUSHn with too few operand bytes does" (00_scope.md R7; 92_eei_decisions.md D2; log 2). The
values are the two the source names: "whether PC advances by 1 (opcode only) or stays put" (40_stack.md R85). -/
inductive TruncPush where
  /-- "skip the push, `pc <- pc + 1`": the default. -/
  | opcodeOnly
  /-- Skip the push, `pc` unchanged. The spec rejects it ("the same truncated opcode would be decoded for ever"). -/
  | staysPut
deriving DecidableEq, Repr

/-- The sizes of a finite implementation (00_scope.md R7; 92_eei_decisions.md D3, D4; logs 3, 4). -/
structure Sizes where
  /-- `CODE_MAX`, the largest `LEN` the hardware accepts. -/
  codeMax : Nat
  /-- `PCW`, the width of the pc register in bits. -/
  pcw : Nat
  /-- `STACK_DEPTH`, the number of Word slots. -/
  stackDepth : Nat
deriving DecidableEq, Repr

/-- The constraints the spec puts on them: `PCW` represents every value in `[0, CODE_MAX]`, and
`STACK_DEPTH >= CODE_MAX` (00_scope.md R7). -/
def Sizes.Valid (z : Sizes) : Prop :=
  z.codeMax < 2 ^ z.pcw ∧ z.codeMax ≤ z.stackDepth

/-- The parameters the machine takes as an argument (00_scope.md R7; "Open parameters, in one list" of
92_eei_decisions.md). `Sys2Proof.defaultParams` holds their defaults. -/
structure Params where
  /-- `OPMAP` (log 1). -/
  opmap : OpMap
  /-- `TRUNC_PUSH` (log 2). -/
  truncPush : TruncPush
  /-- `CODE_MAX`, `PCW`, `STACK_DEPTH`; `none` is the source's own machine, which bounds none of them. -/
  sizes : Option Sizes
deriving DecidableEq, Repr

/-- FREE VALUE: what `pc` holds after an abort, numbered by the counter `free` of the state ("S, pc: not observable
from here on", 60_exceptions.md R174; `any value`, 93_implementation_defined.md U7; log 5). -/
opaque abortedPc : Nat → Nat

/-- FREE VALUE: what the stack holds after an abort, numbered by the counter `free` of the state
(60_exceptions.md R174; 93_implementation_defined.md U1, U7; log 5). -/
opaque abortedStack : Nat → List Word

end Config

end Sys2Proof
end

