-- ==== Sys2Proof/Machine/State.lean ====
section
/-! DEFINITION. The architectural state `(pc, S, run, cause)` with the inputs `Code` and `LEN` of the execution
(spec/10_state.md), the reasons a step can stop, and the state after reset. -/

namespace Sys2Proof.Machine

/-- The run states (10_state.md R28). -/
inductive RunState where
  /-- A step can be performed. -/
  | running
  /-- "terminal, success" -/
  | halted
  /-- "terminal, failure" -/
  | aborted
deriving DecidableEq, Repr

/-- The cause of an abort, internal and unobservable (10_state.md R29; 60_exceptions.md R170). -/
inductive Cause where
  | none
  | unrecognizedOpcode
  | stackUnderflow
deriving DecidableEq, Repr

/-- What a fault records, internal only (60_exceptions.md R171, column "recorded value"; log 17). -/
inductive Recorded where
  /-- the byte `Code[pc]` and the `pc` -/
  | unrecognized (byte : Byte) (pc : Nat)
  /-- the opcode and the `pc` -/
  | underflow (op : OpCode) (pc : Nat)
deriving DecidableEq, Repr

/-- The code memory of one execution: `LEN` and the bytes at addresses `0 .. LEN-1` (20_memory.md R40, R48), held
as the cells that are not `Memory.unlisted` (log 8). -/
structure Memory where
  /-- `LEN`, the length of the bytecode. -/
  len : Nat
  /-- The listed bytes, addresses rising. -/
  cells : List Host.Cell
deriving DecidableEq, Repr

/-- What an address below `LEN` that no cell names reads as (log 8); an address at or beyond `LEN` does not exist. -/
def Memory.unlisted : Byte := 0x00

/-- The canonical form: addresses strictly rising and below `LEN`, no cell equal to `Memory.unlisted`. -/
def Memory.wf (m : Memory) : Bool :=
  decide (m.cells.Pairwise fun x y => x.1 < y.1)
    && m.cells.all fun c => decide (c.1 < m.len) && decide (c.2 ≠ Memory.unlisted)

/-- The whole architectural state. -/
structure State where
  /-- Program counter, a byte index `0 <= pc <= LEN` (10_state.md R21; log 4). -/
  pc : Nat
  /-- `S = [s_0, ..., s_(d-1)]`, oldest first, top last (10_state.md R23; log 14). -/
  stack : List Word
  /-- Run state (10_state.md R28). -/
  run : RunState
  /-- Cause of an abort (10_state.md R29). -/
  cause : Cause
  /-- What the fault recorded, internal (60_exceptions.md R171; log 17). -/
  recorded : Option Recorded
  /-- `Code` and `LEN` (10_state.md R33). -/
  mem : Memory
  /-- The model's own: which free value is taken next (log 5). -/
  free : Nat
deriving DecidableEq, Repr

/-- Why the machine stops: no step of the spec exists. No instruction's meaning raises one of these. -/
inductive Fault where
  /-- Raised by `step` in Halted: "No step exists in Halted" (45_execution_loop.md R154). Safe (log 9). -/
  | noStepHalted
  /-- Raised by `step` in Aborted: "No step exists in Aborted" (45_execution_loop.md R155). Safe (log 9). -/
  | noStepAborted
  /-- Raised by `step` when `pc > LEN`, which "never occurs" (45_execution_loop.md R152). Safe (log 10). -/
  | pcPastEnd
  /-- Raised by `stepWith` under the sizes of a finite implementation, when the next `pc` needs more than `PCW` bits or
  the next stack more than `STACK_DEPTH` slots; never under sizes that meet R7, and never by `step`. Safe (log 19). -/
  | exceedsSizes
deriving DecidableEq, Repr

/-- Why an instruction has no meaning in this model. -/
inductive Refusal where
  /-- Raised by `exec` for an instruction without a meaning yet; every instruction has one, so none is raised. Safe. -/
  | notModelled (mnemonic : String)
deriving DecidableEq, Repr

/-- The state right after reset with the empty bytecode, every other field as 10_state.md R36 says (logs 6, 7). -/
def State.reset : State where
  pc := 0
  stack := []
  run := .running
  cause := .none
  recorded := none
  mem := { len := 0, cells := [] }
  free := 0

end Sys2Proof.Machine
end

