-- ==== Sys2Proof/Machine/Flags.lean ====
section
/-! DEFINITION. There are no status flags and no condition codes (10_state.md R31). What stands here is what the
hardware has in their place: the truth Words the comparisons push (44_comparison.md R140), the one flag it exposes,
`success` (10_state.md R30), and the optional numeric codes of `run` and `cause` (92_eei_decisions.md D9; log 17). -/

namespace Sys2Proof.Machine

/-- "Word(1) for true or Word(0) for false" (44_comparison.md R140). -/
def truthWord (b : Bool) : Word :=
  if b then 1 else 0

/-- `success = (run = Halted)`, defined only in a terminal state (10_state.md R30). -/
def State.success (s : State) : Option Bool :=
  match s.run with
  | .running => none
  | .halted => some true
  | .aborted => some false

/-- Optional code of a run state (92_eei_decisions.md D9). -/
def RunState.code : RunState → Nat
  | .running => 0
  | .halted => 1
  | .aborted => 2

/-- Cause codes (60_exceptions.md R171). -/
def Cause.code : Cause → Nat
  | .none => 0
  | .unrecognizedOpcode => 1
  | .stackUnderflow => 2

end Sys2Proof.Machine
end

