-- ==== Sys2Proof/Syntax.lean ====
section
/-! DEFINITION. The syntax of the 25 instructions, one constructor per row of spec/opcode_table.json. -/

namespace Sys2Proof

/-- An instruction as the decoder hands it to the machine. Format `O` has no fields: all operands are implicit
(30_encoding.md R61). Format `P(n)` carries its immediate: `some imm` when all `n` operand bytes are present
(40_stack.md R84), `none` for a truncated PUSHn (30_encoding.md R62, 40_stack.md R85). -/
inductive Instr where
  /-- R153 -/ | stop
  /-- R101 -/ | add
  /-- R103 -/ | mul
  /-- R102 -/ | sub
  /-- R104 -/ | div
  /-- R122 -/ | sdiv
  /-- R105 -/ | mod
  /-- R123 -/ | smod
  /-- R106 -/ | addmod
  /-- R107 -/ | mulmod
  /-- R108 -/ | exp
  /-- R130 -/ | signextend
  /-- R141 -/ | lt
  /-- R142 -/ | gt
  /-- R143 -/ | slt
  /-- R144 -/ | sgt
  /-- R82 -/ | pop
  /-- R83 -/ | push0
  /-- R86 -/ | push1 (imm : Option Word)
  /-- R87 -/ | push2 (imm : Option Word)
  /-- R88 -/ | push4 (imm : Option Word)
  /-- R89 -/ | push6 (imm : Option Word)
  /-- R90 -/ | push10 (imm : Option Word)
  /-- R91 -/ | push11 (imm : Option Word)
  /-- R92 -/ | push32 (imm : Option Word)
deriving DecidableEq, Repr

/-- The OpCode of an instruction. -/
def Instr.opcode : Instr → OpCode
  | .stop => .stop | .add => .add | .mul => .mul | .sub => .sub | .div => .div | .sdiv => .sdiv
  | .mod => .mod | .smod => .smod | .addmod => .addmod | .mulmod => .mulmod | .exp => .exp
  | .signextend => .signextend | .lt => .lt | .gt => .gt | .slt => .slt | .sgt => .sgt
  | .pop => .pop | .push0 => .push0
  | .push1 _ => .push1 | .push2 _ => .push2 | .push4 _ => .push4 | .push6 _ => .push6
  | .push10 _ => .push10 | .push11 _ => .push11 | .push32 _ => .push32

/-- The immediate an instruction carries; absent in format `O` and in a truncated PUSHn. -/
def Instr.imm : Instr → Option Word
  | .push1 i | .push2 i | .push4 i | .push6 i | .push10 i | .push11 i | .push32 i => i
  | .stop | .add | .mul | .sub | .div | .sdiv | .mod | .smod | .addmod | .mulmod | .exp
  | .signextend | .lt | .gt | .slt | .sgt | .pop | .push0 => none

end Sys2Proof
end

