-- ==== Sys2Proof/WellFormed.lean ====
section
/-! DEFINITION. When an `Instr` is one that some code bytes encode: the immediate of PUSHn lies in `[0, 256^n)`
(30_encoding.md R65). A truncated PUSHn carries no immediate and is such a form (40_stack.md R85). -/

namespace Sys2Proof

/-- The immediate, if present, is a value of `n` bytes. -/
def immFits (n : Nat) (imm : Option Word) : Bool :=
  imm.all fun w => decide (w.toNat < 256 ^ n)

/-- The check of an instruction: the pushed value range of R86 to R92. -/
def WellFormed : Instr → Bool
  | .push1 imm => immFits 1 imm
  | .push2 imm => immFits 2 imm
  | .push4 imm => immFits 4 imm
  | .push6 imm => immFits 6 imm
  | .push10 imm => immFits 10 imm
  | .push11 imm => immFits 11 imm
  | .push32 imm => immFits 32 imm
  | .stop | .add | .mul | .sub | .div | .sdiv | .mod | .smod | .addmod | .mulmod | .exp
  | .signextend | .lt | .gt | .slt | .sgt | .pop | .push0 => true

end Sys2Proof
end

