-- ==== Sys2Proof/Decode.lean ====
section
/-! DEFINITION. The opcode map, the default parameters, the decoder (total on any bytes, rejecting by name) and the encoder
(spec/30_encoding.md). -/

namespace Sys2Proof

/-- `OPMAP`, the default table of 30_encoding.md R63 (log 1: 21 of the bytes are the spec's decision D1). -/
def opmap : Config.OpMap :=
  [(0x00, .stop), (0x01, .add), (0x02, .mul), (0x03, .sub), (0x04, .div), (0x05, .sdiv), (0x06, .mod),
   (0x07, .smod), (0x08, .addmod), (0x09, .mulmod), (0x0A, .exp), (0x0B, .signextend),
   (0x10, .lt), (0x11, .gt), (0x12, .slt), (0x13, .sgt), (0x50, .pop),
   (0x5F, .push0), (0x60, .push1), (0x61, .push2), (0x63, .push4), (0x65, .push6),
   (0x69, .push10), (0x6A, .push11), (0x7F, .push32)]

/-- The defaults of the parameters (00_scope.md R7, column "value"): the default `OPMAP`, the truncated PUSHn that
advances past its opcode byte, and no bound on the code, the pc and the stack (logs 1 to 4). -/
def defaultParams : Config.Params where
  opmap := opmap
  truncPush := .opcodeOnly
  sizes := none

/-- The number of immediate bytes: `n` for PUSHn, 0 for format `O`; "`n` is fixed by the mnemonic"
(30_encoding.md R60, R62). -/
def OpCode.immBytes : OpCode → Nat
  | .push1 => 1 | .push2 => 2 | .push4 => 4 | .push6 => 6 | .push10 => 10 | .push11 => 11 | .push32 => 32
  | .stop | .add | .mul | .sub | .div | .sdiv | .mod | .smod | .addmod | .mulmod | .exp
  | .signextend | .lt | .gt | .slt | .sgt | .pop | .push0 => 0

/-- The instruction of an OpCode and an immediate (format `O` has none). -/
def OpCode.instr : OpCode → Option Word → Instr
  | .stop, _ => .stop | .add, _ => .add | .mul, _ => .mul | .sub, _ => .sub | .div, _ => .div
  | .sdiv, _ => .sdiv | .mod, _ => .mod | .smod, _ => .smod | .addmod, _ => .addmod
  | .mulmod, _ => .mulmod | .exp, _ => .exp | .signextend, _ => .signextend
  | .lt, _ => .lt | .gt, _ => .gt | .slt, _ => .slt | .sgt, _ => .sgt
  | .pop, _ => .pop | .push0, _ => .push0
  | .push1, i => .push1 i | .push2, i => .push2 i | .push4, i => .push4 i | .push6, i => .push6 i
  | .push10, i => .push10 i | .push11, i => .push11 i | .push32, i => .push32 i

/-- Bytes read big-endian, the first the most significant (20_memory.md R44). -/
def beNat (bs : List Byte) : Nat :=
  bs.foldl (fun acc b => acc * 256 + b.toNat) 0

/-- The low `n` bytes of `v`, most significant first (20_memory.md R44, 00_scope.md R9). -/
def beBytes : Nat → Nat → List Byte
  | 0, _ => []
  | n + 1, v => BitVec.ofNat 8 (v / 256 ^ n) :: beBytes n v

/-- Why bytes do not decode. -/
inductive DecodeError where
  /-- There is no byte: the end of the code, where nothing is fetched (20_memory.md R42). -/
  | noByte
  /-- `Unrecognized`: the byte is not in the map (30_encoding.md R64, R66). -/
  | unrecognized (b : Byte)
deriving DecidableEq, Repr

/-- `decode(byte) -> OpCode | Unrecognized` for a given map: "exact byte equality only" (30_encoding.md R60, R64). -/
def decodeByteWith (m : Config.OpMap) (b : Byte) : Option OpCode :=
  m.lookup b

/-- The decoder's contract with the default map (30_encoding.md R64). -/
def decodeByte (b : Byte) : Option OpCode :=
  decodeByteWith opmap b

/-- The instruction of an OpCode whose opcode byte is followed by the code bytes `rest`, and the bytes after it:
the full operand if `n` bytes are there, else the truncated form, of one byte (30_encoding.md R62, R65). -/
def takeOperand (op : OpCode) (rest : List Byte) : Instr × List Byte :=
  if op.immBytes = 0 then (op.instr none, rest)
  else if op.immBytes ≤ rest.length then
    (op.instr (some (BitVec.ofNat 256 (beNat (rest.take op.immBytes)))), rest.drop op.immBytes)
  else (op.instr none, rest)

/-- Decode the instruction at the head of `bs`, the code bytes up to the end of the code, under the map `m`; the
answer holds the bytes after the instruction. -/
def decodeWith (m : Config.OpMap) : List Byte → Except DecodeError (Instr × List Byte)
  | [] => .error .noByte
  | b :: rest =>
    match decodeByteWith m b with
    | none => .error (.unrecognized b)
    | some op => .ok (takeOperand op rest)

/-- The decoder with the default map. -/
def decode (bs : List Byte) : Except DecodeError (Instr × List Byte) :=
  decodeWith opmap bs

/-- The byte the map gives an OpCode. -/
def opByteWith (m : Config.OpMap) (op : OpCode) : Option Byte :=
  (m.find? fun r => decide (r.2 = op)).map Prod.fst

/-- The immediate bytes of an instruction: `n` bytes big-endian, or none in a truncated PUSHn (30_encoding.md R60). -/
def Instr.immBytes (i : Instr) : List Byte :=
  match i.imm with
  | none => []
  | some w => beBytes i.opcode.immBytes w.toNat

/-- How many bytes an instruction takes: 1, or `1 + n` for a PUSHn with its operand; a truncated PUSHn "is treated as a
1-byte instruction" (30_encoding.md R60, R62). -/
def Instr.size (i : Instr) : Nat :=
  match i.imm with
  | none => 1
  | some _ => 1 + i.opcode.immBytes

/-- The bytes of an instruction under the map `m` (30_encoding.md R60); empty where the map has no byte for it. -/
def encodeWith (m : Config.OpMap) (i : Instr) : List Byte :=
  match opByteWith m i.opcode with
  | none => []
  | some b => b :: i.immBytes

/-- The encoder with the default map. -/
def encode (i : Instr) : List Byte :=
  encodeWith opmap i

/-- The first `k` bytes of the table word `w` of `nbits` bits, lowest byte first; the bits above `nbits` are 0. -/
def tableBytes (nbits w k : Nat) : List Byte :=
  (List.range k).map fun j => BitVec.ofNat 8 (w / 256 ^ j % 2 ^ min 8 (nbits - 8 * j))

/-- The instruction the decoder reads from a table word, laid out as the code memory stores it: byte `j` of the
instruction is bits `8j+7 .. 8j`. -/
def decodeTableWord (nbits w : Nat) : Option Instr :=
  match decode (tableBytes nbits w Config.maxInstrBytes) with
  | .ok (i, _) => some i
  | .error _ => none

end Sys2Proof
end

