-- ==== Sys2Proof/Machine/Operands.lean ====
section
/-! DEFINITION. The forms of an instruction's operands: how many Words it pops, and the views of a Word its rules
read: bits, bytes, sign, magnitude, signed integer (00_scope.md R9, R10; 42_arithmetic_signed.md R120, R121). -/

namespace Sys2Proof

/-- The "pops" column of 30_encoding.md R63: how many stack operands the OpCode needs. -/
def OpCode.pops : OpCode → Nat
  | .stop | .push0 | .push1 | .push2 | .push4 | .push6 | .push10 | .push11 | .push32 => 0
  | .pop => 1
  | .add | .mul | .sub | .div | .sdiv | .mod | .smod | .exp | .signextend | .lt | .gt | .slt | .sgt => 2
  | .addmod | .mulmod => 3

/-- The "pushes" column of 30_encoding.md R63: how many Words a completed instruction pushes; a truncated PUSHn pushes
none. -/
def Instr.pushes : Instr → Nat
  | .stop | .pop => 0
  | .add | .mul | .sub | .div | .sdiv | .mod | .smod | .addmod | .mulmod | .exp | .signextend
  | .lt | .gt | .slt | .sgt | .push0 => 1
  | .push1 imm | .push2 imm | .push4 imm | .push6 imm | .push10 imm | .push11 imm | .push32 imm =>
    if imm.isSome then 1 else 0

namespace Machine

/-- `w[hi:lo]` (00_scope.md R9). -/
def bitsOf (w : Word) (hi lo : Nat) : Nat :=
  w.toNat / 2 ^ lo % 2 ^ (hi - lo + 1)

/-- `byte(w, j) = w[8j+7 : 8j]`, byte 0 the least significant (00_scope.md R9). -/
def byteOf (w : Word) (j : Nat) : Byte :=
  BitVec.ofNat 8 (bitsOf w (8 * j + 7) (8 * j))

/-- `neg?(w)`: bit 255 of `w` is set (00_scope.md R10). -/
def isNeg (w : Word) : Bool :=
  decide (bitsOf w 255 255 = 1)

/-- `toS(w)`, the signed view (00_scope.md R10). -/
def toS (w : Word) : Int :=
  if w.toNat < 2 ^ 255 then w.toNat else (w.toNat : Int) - 2 ^ 256

/-- `negate(x) = (M - x) mod M` (42_arithmetic_signed.md R120). -/
def negate (x : Word) : Word :=
  BitVec.ofNat 256 ((modulus - x.toNat) % modulus)

/-- `mag(x)`, a Word read as unsigned (42_arithmetic_signed.md R121). -/
def mag (x : Word) : Word :=
  if isNeg x then negate x else x

end Machine
end Sys2Proof
end

