-- ==== Sys2Proof/Machine/Ops.lean ====
section
/-! DEFINITION. The named operations over the code memory, the stack and the run state: reads, the environment's
load, push and popN, the abort (the only "trap entry", 60_exceptions.md R174) and the shared shapes of an
instruction's effect. There is no return from a fault (60_exceptions.md R175). -/

namespace Sys2Proof.Machine

/-! ### The code memory -/

/-- The byte at an address below `LEN`: its cell, or `Memory.unlisted` (log 8). -/
def Memory.byteAt (m : Memory) (a : Nat) : Byte :=
  (m.cells.lookup a).getD Memory.unlisted

/-- The model's read of one byte: `Code[a]` for `0 <= a < LEN`; no other address exists (20_memory.md R40, R48). -/
def Memory.read? (m : Memory) (a : Nat) : Option Byte :=
  if a < m.len then some (m.byteAt a) else none

/-- The bytes `Code[a], ..., Code[a+n-1]` in address order. -/
def Memory.bytes (m : Memory) (a n : Nat) : List Byte :=
  (List.range n).map fun j => m.byteAt (a + j)

/-- `MemRead(a, n)`, big-endian (20_memory.md R44; 00_scope.md R11). Defined only when `a + n <= LEN`. -/
def Memory.memRead (m : Memory) (a n : Nat) : Nat :=
  beNat (m.bytes a n)

/-- The code bytes from `pc` on, as many as the longest instruction has and none at or beyond `LEN`
(20_memory.md R42, R43). -/
def Memory.window (m : Memory) (pc : Nat) : List Byte :=
  m.bytes pc (min Config.maxInstrBytes (m.len - pc))

/-- Set the cell of one address, keeping the list canonical. -/
def Memory.setCell : List Host.Cell → Nat → Byte → List Host.Cell
  | [], a, b => if b = Memory.unlisted then [] else [(a, b)]
  | (k, v) :: t, a, b =>
    if a < k then
      if b = Memory.unlisted then (k, v) :: t else (a, b) :: (k, v) :: t
    else if a = k then
      if b = Memory.unlisted then t else (a, b) :: t
    else (k, v) :: Memory.setCell t a b

/-- The ENVIRONMENT's write of one byte while it supplies the bytecode, extending `LEN` over it
(70_reset_and_hazards.md R203). No instruction writes (20_memory.md R41). -/
def Memory.write (m : Memory) (a : Nat) (b : Byte) : Memory :=
  { len := max m.len (a + 1), cells := Memory.setCell m.cells a b }

/-- Consecutive writes from address `a` on. -/
def Memory.writeBytes (m : Memory) (a : Nat) : List Byte → Memory
  | [] => m
  | b :: bs => (m.write a b).writeBytes (a + 1) bs

/-- The code memory that holds exactly a bytecode: `LEN` is its length (10_state.md R33). -/
def Memory.ofBytes (bs : List Byte) : Memory :=
  ({ len := 0, cells := [] } : Memory).writeBytes 0 bs

/-- Reset: "It takes the bytecode as its argument and sets every piece of architectural state"
(70_reset_and_hazards.md R200). -/
def State.resetWith (code : List Byte) : State :=
  { State.reset with mem := Memory.ofBytes code }

/-! ### The stack unit -/

/-- `push(w)`: "appends w as new top; always succeeds" (40_stack.md R80). -/
def push (w : Word) (S : List Word) : List Word :=
  S ++ [w]

/-- `popN(n)`: the `n` most recently pushed Words, most recent first, and the stack that is left; `none` is
`Underflow`, and then nothing is removed (40_stack.md R81). -/
def popN (n : Nat) (S : List Word) : Option (List Word × List Word) :=
  if S.length < n then none
  else some ((S.drop (S.length - n)).reverse, S.take (S.length - n))

/-! ### The abort and the halt -/

/-- `raise F(info)`: `run <- Aborted`, `cause <- F`, `info` recorded internally; `pc` and `S` are not observable from
here on, so both become free values (60_exceptions.md R171, R174; logs 5, 17). -/
def State.raise (s : State) (c : Cause) (info : Recorded) : State :=
  { s with
    run := .aborted
    cause := c
    recorded := some info
    pc := Config.abortedPc s.free
    stack := Config.abortedStack s.free
    free := s.free + 1 }

/-- `raise UnrecognizedOpcode(Code[pc])` (60_exceptions.md R172). -/
def State.raiseUnrecognized (s : State) (b : Byte) : State :=
  s.raise .unrecognizedOpcode (.unrecognized b s.pc)

/-- `raise StackUnderflow` by the instruction `op` (60_exceptions.md R173). -/
def State.raiseUnderflow (s : State) (op : OpCode) : State :=
  s.raise .stackUnderflow (.underflow op s.pc)

/-- `halt`: `run <- Halted`, nothing else changes (00_scope.md R11; 45_execution_loop.md R152, R153; log 13). -/
def State.halt (s : State) : State :=
  { s with run := .halted }

/-! ### Shared shapes of an effect -/

/-- A completed instruction of `len` bytes that leaves the stack `S`: `S` and `pc <- pc + len` (10_state.md R22). -/
def State.advance (s : State) (len : Nat) (S : List Word) : State :=
  { s with stack := S, pc := s.pc + len }

/-- A two-operand instruction: `(a, b) <- popN(2); push(f a b); pc <- pc + 1`, or `StackUnderflow`
(41_arithmetic_unsigned.md R100, R109; 42_arithmetic_signed.md R124; 44_comparison.md R140). -/
def binary (op : OpCode) (f : Word → Word → Word) (s : State) : Host.Outcome State Fault Refusal :=
  match popN 2 s.stack with
  | some ([a, b], S) => .next (s.advance 1 (push (f a b) S))
  | _ => .next (s.raiseUnderflow op)

/-- A three-operand instruction: `(a, b, N) <- popN(3); push(f a b N); pc <- pc + 1`, or `StackUnderflow`
(41_arithmetic_unsigned.md R100, R109). -/
def ternary (op : OpCode) (f : Word → Word → Word → Word) (s : State) : Host.Outcome State Fault Refusal :=
  match popN 3 s.stack with
  | some ([a, b, n], S) => .next (s.advance 1 (push (f a b n) S))
  | _ => .next (s.raiseUnderflow op)

/-- A truncated PUSHn under a value of `TRUNC_PUSH`: nothing is pushed and no fault is raised; `pc` advances past the
opcode byte, or stays put (40_stack.md R85; 92_eei_decisions.md D2; log 2). -/
def truncatedPush : Config.TruncPush → State → Host.Outcome State Fault Refusal
  | .opcodeOnly, s => .next (s.advance 1 s.stack)
  | .staysPut, s => .next s

/-- PUSHn with `n` operand bytes: the full form (40_stack.md R84), or the truncated form under the default of
`TRUNC_PUSH` (40_stack.md R85; log 2). -/
def pushImm (n : Nat) (imm : Option Word) (s : State) : Host.Outcome State Fault Refusal :=
  match imm with
  | some w => .next (s.advance (1 + n) (push w s.stack))
  | none => truncatedPush defaultParams.truncPush s

end Sys2Proof.Machine
end

