-- ==== Sys2Proof/Machine/Compare.lean ====
section
/-! DEFINITION. The comparison unit: LT, GT, SLT, SGT (spec/44_comparison.md). -/

namespace Sys2Proof.Machine

/-- `1 if a < b else 0`, unsigned (R141). -/
def ltWord (a b : Word) : Word := truthWord (decide (a.toNat < b.toNat))

/-- `1 if a > b else 0`, unsigned (R142). -/
def gtWord (a b : Word) : Word := truthWord (decide (a.toNat > b.toNat))

/-- The four cases of R143. -/
def sltWord (a b : Word) : Word :=
  match isNeg a, isNeg b with
  | true, false => truthWord true
  | false, true => truthWord false
  | false, false => truthWord (decide (a.toNat < b.toNat))
  | true, true => truthWord (decide ((negate a).toNat > (negate b).toNat))

/-- The four cases of R144 (log 16). -/
def sgtWord (a b : Word) : Word :=
  match isNeg a, isNeg b with
  | true, false => truthWord false
  | false, true => truthWord true
  | false, false => truthWord (decide (a.toNat > b.toNat))
  | true, true => truthWord (decide ((negate a).toNat < (negate b).toNat))

/-- LT (R141). -/
def execLt (s : State) : Host.Outcome State Fault Refusal := binary .lt ltWord s

/-- GT (R142). -/
def execGt (s : State) : Host.Outcome State Fault Refusal := binary .gt gtWord s

/-- SLT (R143). -/
def execSlt (s : State) : Host.Outcome State Fault Refusal := binary .slt sltWord s

/-- SGT (R144). -/
def execSgt (s : State) : Host.Outcome State Fault Refusal := binary .sgt sgtWord s

end Sys2Proof.Machine
end

