-- ==== Sys2Proof/Machine/Control.lean ====
section
/-! DEFINITION. The one instruction the execution loop itself implements: STOP (45_execution_loop.md R153). -/

namespace Sys2Proof.Machine

/-- STOP: `run <- Halted`; `S` and `pc` unchanged (R153; log 13). -/
def execStop (s : State) : Host.Outcome State Fault Refusal :=
  .next s.halt

end Sys2Proof.Machine
end

