-- ==== Sys2Proof/Machine/SignExtend.lean ====
section
/-! DEFINITION. The sign-extension unit: SIGNEXTEND (spec/43_sign_extend.md). -/

namespace Sys2Proof.Machine

/-- The byte form of R130: bytes at index `<= k` stay, bytes above become `0xFF` or `0x00` by the high bit of byte
`k`; `k > 31` leaves `x` unchanged. The whole Word `k` is compared (log 16). -/
def signextendWord (k x : Word) : Word :=
  if k.toNat > 31 then x
  else
    let fill : Byte := if (byteOf x k.toNat).toNat > 0x7F then 0xFF else 0x00
    BitVec.ofNat 256 (beNat ((List.range 32).reverse.map fun j => if j ≤ k.toNat then byteOf x j else fill))

/-- SIGNEXTEND: "pops k then x (k popped first)" (R130). -/
def execSignextend (s : State) : Host.Outcome State Fault Refusal := binary .signextend signextendWord s

end Sys2Proof.Machine
end

