-- ==== Sys2Proof/Machine/Signed.lean ====
section
/-! DEFINITION. The signed arithmetic unit: SDIV and SMOD, on magnitudes (spec/42_arithmetic_signed.md). -/

namespace Sys2Proof.Machine

/-- The pseudocode of R122: unsigned floor division of the magnitudes, negated when the signs differ. -/
def sdivWord (a b : Word) : Word :=
  if b = 0 then 0
  else
    let q : Word := BitVec.ofNat 256 ((mag a).toNat / (mag b).toNat)
    if isNeg a ≠ isNeg b then negate q else q

/-- The pseudocode of R123: unsigned remainder of the magnitudes, negated when the dividend is negative. -/
def smodWord (a b : Word) : Word :=
  if b = 0 then 0
  else
    let r : Word := BitVec.ofNat 256 ((mag a).toNat % (mag b).toNat)
    if isNeg a then negate r else r

/-- SDIV (R122). -/
def execSdiv (s : State) : Host.Outcome State Fault Refusal := binary .sdiv sdivWord s

/-- SMOD (R123). -/
def execSmod (s : State) : Host.Outcome State Fault Refusal := binary .smod smodWord s

end Sys2Proof.Machine
end

