-- ==== Sys2Proof/Machine/Stack.lean ====
section
/-! DEFINITION. The stack instructions: POP, PUSH0 and the seven PUSHn (spec/40_stack.md). -/

namespace Sys2Proof.Machine

/-- POP: pop 1, discard, `pc <- pc + 1` (40_stack.md R82). -/
def execPop (s : State) : Host.Outcome State Fault Refusal :=
  match popN 1 s.stack with
  | some (_, S) => .next (s.advance 1 S)
  | none => .next (s.raiseUnderflow .pop)

/-- PUSH0: push Word(0), `pc <- pc + 1` (40_stack.md R83). -/
def execPush0 (s : State) : Host.Outcome State Fault Refusal :=
  .next (s.advance 1 (push 0 s.stack))

/-- PUSH1 (40_stack.md R86). -/
def execPush1 (imm : Option Word) (s : State) : Host.Outcome State Fault Refusal := pushImm 1 imm s

/-- PUSH2 (40_stack.md R87). -/
def execPush2 (imm : Option Word) (s : State) : Host.Outcome State Fault Refusal := pushImm 2 imm s

/-- PUSH4 (40_stack.md R88). -/
def execPush4 (imm : Option Word) (s : State) : Host.Outcome State Fault Refusal := pushImm 4 imm s

/-- PUSH6 (40_stack.md R89). -/
def execPush6 (imm : Option Word) (s : State) : Host.Outcome State Fault Refusal := pushImm 6 imm s

/-- PUSH10 (40_stack.md R90). -/
def execPush10 (imm : Option Word) (s : State) : Host.Outcome State Fault Refusal := pushImm 10 imm s

/-- PUSH11 (40_stack.md R91). -/
def execPush11 (imm : Option Word) (s : State) : Host.Outcome State Fault Refusal := pushImm 11 imm s

/-- PUSH32 (40_stack.md R92). -/
def execPush32 (imm : Option Word) (s : State) : Host.Outcome State Fault Refusal := pushImm 32 imm s

end Sys2Proof.Machine
end

