-- ==== Sys2Proof/Machine/Unsigned.lean ====
section
/-! DEFINITION. The unsigned arithmetic unit: ADD, SUB, MUL, DIV, MOD, ADDMOD, MULMOD, EXP
(spec/41_arithmetic_unsigned.md). Each result is computed over the integers and reduced modulo `2^256` once, when it
is made a Word (R100, R114). -/

namespace Sys2Proof.Machine

/-- `(a + b) mod M` (R101). -/
def addWord (a b : Word) : Word := BitVec.ofNat 256 (a.toNat + b.toNat)

/-- `(a - b) mod M`, first-popped minus second-popped (R102). -/
def subWord (a b : Word) : Word := BitVec.ofInt 256 ((a.toNat : Int) - b.toNat)

/-- `(a * b) mod M` (R103). -/
def mulWord (a b : Word) : Word := BitVec.ofNat 256 (a.toNat * b.toNat)

/-- `a div b`, 0 for `b = 0` (R104). -/
def divWord (a b : Word) : Word := if b = 0 then 0 else BitVec.ofNat 256 (a.toNat / b.toNat)

/-- `a mod b`, 0 for `b = 0` (R105). -/
def modWord (a b : Word) : Word := if b = 0 then 0 else BitVec.ofNat 256 (a.toNat % b.toNat)

/-- `(a + b) mod N` with the exact sum, 0 for `N = 0` (R106; log 11). -/
def addmodWord (a b n : Word) : Word := if n = 0 then 0 else BitVec.ofNat 256 ((a.toNat + b.toNat) % n.toNat)

/-- `(a * b) mod N` with the exact product, 0 for `N = 0` (R107; log 11). -/
def mulmodWord (a b n : Word) : Word := if n = 0 then 0 else BitVec.ofNat 256 ((a.toNat * b.toNat) % n.toNat)

/-- The square-and-multiply loop of R108, run at most `fuel` times. -/
def expLoop : Nat → Nat → Nat → Nat → Nat
  | 0, r, _, _ => r
  | fuel + 1, r, base, e =>
    if e = 0 then r
    else expLoop fuel (if e % 2 = 1 then r * base % modulus else r) (base * base % modulus) (e / 2)

/-- `(a ^ b) mod M`, computed as R108 says hardware does; "the loop runs at most 256 times" (R108; log 12). -/
def expWord (a b : Word) : Word := BitVec.ofNat 256 (expLoop 256 1 a.toNat b.toNat)

/-- ADD (R101). -/
def execAdd (s : State) : Host.Outcome State Fault Refusal := binary .add addWord s

/-- SUB (R102). -/
def execSub (s : State) : Host.Outcome State Fault Refusal := binary .sub subWord s

/-- MUL (R103). -/
def execMul (s : State) : Host.Outcome State Fault Refusal := binary .mul mulWord s

/-- DIV (R104). -/
def execDiv (s : State) : Host.Outcome State Fault Refusal := binary .div divWord s

/-- MOD (R105). -/
def execMod (s : State) : Host.Outcome State Fault Refusal := binary .mod modWord s

/-- ADDMOD (R106). -/
def execAddmod (s : State) : Host.Outcome State Fault Refusal := ternary .addmod addmodWord s

/-- MULMOD (R107). -/
def execMulmod (s : State) : Host.Outcome State Fault Refusal := ternary .mulmod mulmodWord s

/-- EXP (R108). -/
def execExp (s : State) : Host.Outcome State Fault Refusal := binary .exp expWord s

end Sys2Proof.Machine
end

