-- ==== Sys2Proof/Machine/StepWith.lean ====
section
/-! DEFINITION. One step of the execution loop (45_execution_loop.md R150) with the parameters of the implementation as
an argument: "A model takes the ones marked OPEN as arguments" (00_scope.md R7). -/

namespace Sys2Proof.Machine

/-- The instruction is a PUSHn without its operand (30_encoding.md R62). -/
def isTruncatedPush (i : Instr) : Bool :=
  decide (i.opcode.immBytes ≠ 0) && i.imm.isNone

/-- Perform an instruction under a value of `TRUNC_PUSH`, on which only the truncated PUSHn depends (40_stack.md R85;
log 2). -/
def execWith (t : Config.TruncPush) (i : Instr) (s : State) : Host.Outcome State Fault Refusal :=
  if isTruncatedPush i then truncatedPush t s else exec i s

/-- The state fits a pc register of `PCW` bits and a stack of `STACK_DEPTH` slots (00_scope.md R7). -/
def State.fits (s : State) (z : Config.Sizes) : Bool :=
  decide (s.pc < 2 ^ z.pcw) && decide (s.stack.length ≤ z.stackDepth)

/-- The outcome under the sizes of a finite implementation: a next state it cannot hold stops the model by name
(log 19). After an abort nothing is held: `pc` and `S` are free values. -/
def withinSizes (z : Option Config.Sizes) (o : Host.Outcome State Fault Refusal) : Host.Outcome State Fault Refusal :=
  match z, o with
  | some z, .next t => if t.run = .aborted ∨ t.fits z = true then .next t else .fault .exceedsSizes
  | _, o => o

/-- The step of R150 under the parameters `p`: in Running, the end-of-code test, then decode, then the instruction's
rule. In a terminal state no step exists (R28, R154, R155; log 9), and `pc > LEN` never occurs (R152; log 10): the model
stops by name. -/
def stepWith (p : Config.Params) (s : State) : Host.Outcome State Fault Refusal :=
  match s.run with
  | .halted => .fault .noStepHalted
  | .aborted => .fault .noStepAborted
  | .running =>
    if s.pc = s.mem.len then .next s.halt
    else if s.mem.len < s.pc then .fault .pcPastEnd
    else
      match decodeWith p.opmap (s.mem.window s.pc) with
      | .error _ => .next (s.raiseUnrecognized (s.mem.byteAt s.pc))
      | .ok (i, _) => withinSizes p.sizes (execWith p.truncPush i s)

end Sys2Proof.Machine
end

