-- ==== Sys2Proof/Machine/Step.lean ====
section
/-! DEFINITION. The step of the machine (45_execution_loop.md R150), and the placing of a table word where
the next step fetches. -/

namespace Sys2Proof.Machine

/-- The step of the machine: that of R150 under the default parameters (00_scope.md R7; logs 1 to 4). -/
def step (s : State) : Host.Outcome State Fault Refusal :=
  stepWith defaultParams s

/-- `s` with the instruction of a table word stored at `pc`, where `step` fetches, over as many bytes as the longest
instruction has, and `run` and `cause` as a fetch needs them (20_memory.md R42; log 7). -/
def State.withFetchWord (s : State) (nbits w : Nat) : State :=
  { s with
    mem := s.mem.writeBytes s.pc (tableBytes nbits w Config.maxInstrBytes)
    run := .running
    cause := .none
    recorded := none }

end Sys2Proof.Machine
end

