-- ==== Sys2Proof/Machine/Execute.lean ====
section
/-! DEFINITION. The run of an execution and its result: the whole machine as one function of the bytecode
(45_execution_loop.md R157, R158, R160). -/

namespace Sys2Proof.Machine

/-- `ExecutionResult`. A failed result carries no stack: its stack part is `any value`, to which a model gives no
meaning (45_execution_loop.md R157; 92_eei_decisions.md D5; log 5). -/
inductive ExecutionResult where
  /-- `(S, true)`, oldest first, top last. -/
  | success (stack : List Word)
  /-- `(unspecified, false)`. -/
  | failure
deriving DecidableEq, Repr

/-- The result, read in a terminal state only (45_execution_loop.md R157). -/
def State.result (s : State) : Option ExecutionResult :=
  match s.run with
  | .running => none
  | .halted => some (.success s.stack)
  | .aborted => some .failure

/-- `while run = Running: step`, at most `fuel` times, under the parameters `p` (45_execution_loop.md R160). -/
def loopWith (p : Config.Params) : Nat → State → State
  | 0, s => s
  | fuel + 1, s =>
    match s.run with
    | .running =>
      match stepWith p s with
      | .next t => loopWith p fuel t
      | .fault _ | .refused _ => s
    | .halted | .aborted => s

/-- The loop of the machine, under the default parameters. -/
def loop (fuel : Nat) (s : State) : State :=
  loopWith defaultParams fuel s

/-- The hardware accepts a bytecode of at most `CODE_MAX` bytes (00_scope.md R7; 92_eei_decisions.md D4: "longer inputs
are refused by the environment"). -/
def accepts (p : Config.Params) (code : List Byte) : Bool :=
  p.sizes.all fun z => decide (code.length ≤ z.codeMax)

/-- `execute(bytecode)` of an implementation with the parameters `p`: reset with the bytecode, at most `LEN + 1` steps,
then the result (45_execution_loop.md R156, R160); no execution, hence no result, where the bytecode is not accepted. -/
def executeWith (p : Config.Params) (code : List Byte) : Option ExecutionResult :=
  if accepts p code then (loopWith p (code.length + 1) (State.resetWith code)).result else none

/-- `execute(bytecode)` under the default parameters (45_execution_loop.md R158, R160). -/
def execute (code : List Byte) : Option ExecutionResult :=
  executeWith defaultParams code

end Sys2Proof.Machine
end

