-- ==== Sys2Proof/Safety.lean ====
section
/-! DEFINITION. What counts as a safe run, in the terms the claims use. -/

namespace Sys2Proof.Machine

/-- A terminal state: no step exists in it (10_state.md R28). -/
def State.Terminal (s : State) : Prop :=
  s.run = .halted ∨ s.run = .aborted

/-- The abort with cause `c`, as far as R174 lets a claim read it: `pc` and `S` are left out. -/
def State.AbortedBy (c : Cause) (s : State) : Prop :=
  s.run = .aborted ∧ s.cause = c

/-- The invariant of the machine. The code memory is canonical; until an abort, `0 <= pc <= LEN` (10_state.md R21) and
the depth is bounded by the bytes passed, hence by `LEN` (10_state.md R27); cause is None, and nothing is recorded,
unless the run is Aborted (10_state.md R29). -/
structure State.Inv (s : State) : Prop where
  mem_wf : s.mem.wf = true
  pc_le : s.run ≠ .aborted → s.pc ≤ s.mem.len
  depth_le : s.run ≠ .aborted → s.stack.length ≤ s.pc
  cause_none : s.cause = .none ↔ s.run ≠ .aborted
  recorded_none : s.recorded = none ↔ s.run ≠ .aborted

/-- A step about to be performed that is a truncated PUSHn (40_stack.md R85): the opcode byte at `pc` is that of a
PUSHn in the map `m`, and `pc + 1 + n > LEN`. -/
def State.TruncatedPush (m : Config.OpMap) (s : State) : Prop :=
  s.run = .running ∧ ∃ b op, s.mem.read? s.pc = some b ∧ decodeByteWith m b = some op ∧
    op.immBytes ≠ 0 ∧ s.mem.len < s.pc + 1 + op.immBytes

end Sys2Proof.Machine
end

