-- ==== Sys2Proof/Certificates/Slice0/Obligations.lean ====
section
/-! DEFINITION. The statements for the provers. In a statement about a two-operand instruction the stack is
`rest ++ [b, a]`: `a` was pushed last and is popped first (41_arithmetic_unsigned.md R100). -/

open Sys2Proof Sys2Proof.Machine

/-! ### Encoding -/

/-- The four opcode bytes the source gives (STOP, ADD, POP, PUSH1) and some of decision D1 (log 1), on words written out
from 30_encoding.md sections 1 and 2. -/
def Obligations.SampleWordsDecode : Prop :=
  decode [0x00] = .ok (.stop, []) ∧ decode [0x01] = .ok (.add, []) ∧ decode [0x50] = .ok (.pop, []) ∧
  decode [0x60, 0x05] = .ok (.push1 (some 5), []) ∧ decode [0x05, 0xFF] = .ok (.sdiv, [0xFF]) ∧
  decode [0x0B] = .ok (.signextend, []) ∧ decode [0x13] = .ok (.sgt, []) ∧
  decode [0x61, 0x01, 0x02, 0x00] = .ok (.push2 (some 0x0102), [0x00]) ∧
  decode [0x61, 0x01] = .ok (.push2 none, [0x01]) ∧ decode [0x62] = .error (.unrecognized 0x62)

/-- R66: with the default OPMAP (decision D1, log 1) the bytes at the head of which decoding is refused are exactly the
listed 231, whatever follows. -/
def Obligations.UnrecognizedBytesAreTheListedOnes : Prop :=
  ∀ (b : Byte) (rest : List Byte), decode (b :: rest) = .error (.unrecognized b) ↔
    (0x0C ≤ b.toNat ∧ b.toNat ≤ 0x0F) ∨ (0x14 ≤ b.toNat ∧ b.toNat ≤ 0x4F) ∨ (0x51 ≤ b.toNat ∧ b.toNat ≤ 0x5E) ∨
    b.toNat = 0x62 ∨ b.toNat = 0x64 ∨ (0x66 ≤ b.toNat ∧ b.toNat ≤ 0x68) ∨ (0x6B ≤ b.toNat ∧ b.toNat ≤ 0x7E) ∨
    0x80 ≤ b.toNat

/-- Decode after encode, for the default OPMAP and for any other map an implementation may have (D1, log 1): the bytes
of a well-formed instruction, with any immediate, followed by any bytes, decode to it and to those bytes. A truncated
PUSHn is followed by fewer than `n` bytes, by its definition (R62). -/
def Obligations.DecodeAfterEncode : Prop :=
  opmap.Proper ∧
  ∀ (m : Config.OpMap) (i : Instr) (rest : List Byte), m.Proper → WellFormed i = true →
    (i.imm = none → i.opcode.immBytes ≠ 0 → rest.length < i.opcode.immBytes) →
    decodeWith m (encodeWith m i ++ rest) = .ok (i, rest)

/-- Encode after decode, for any map an implementation may have: what decodes is well formed, and its encoding is the
bytes it was decoded from. Derived from R60 to R65. -/
def Obligations.EncodeAfterDecode : Prop :=
  ∀ (m : Config.OpMap) (bs rest : List Byte) (i : Instr), m.Proper → decodeWith m bs = .ok (i, rest) →
    WellFormed i = true ∧ encodeWith m i ++ rest = bs

/-! ### The step -/

/-- R150: when the bytes from `pc` to the end of the code decode to `i`, the step is `exec i`, with nothing around it;
under any parameters (R7, logs 1 to 4) it is `execWith i` with the decoder of their `OPMAP`, stopped where the result
does not fit their sizes (log 19). `execWith` is `exec` under the default of `TRUNC_PUSH`. -/
def Obligations.StepRunsDecodedInstruction : Prop :=
  (∀ (s : State) (i : Instr) (rest : List Byte), s.run = .running → s.pc < s.mem.len →
    decode (s.mem.bytes s.pc (s.mem.len - s.pc)) = .ok (i, rest) →
    WellFormed i = true ∧ step s = exec i s) ∧
  (∀ (p : Config.Params) (s : State) (i : Instr) (rest : List Byte), s.run = .running → s.pc < s.mem.len →
    decodeWith p.opmap (s.mem.bytes s.pc (s.mem.len - s.pc)) = .ok (i, rest) →
    WellFormed i = true ∧ stepWith p s = withinSizes p.sizes (execWith p.truncPush i s)) ∧
  ∀ (i : Instr) (s : State), execWith .opcodeOnly i s = exec i s

/-- R152: at `pc = LEN` the step halts, with success and the stack as the result; nothing else changes. The empty
bytecode halts so at once. Until an abort, `pc > LEN` never occurs. -/
def Obligations.StepHaltsAtEndOfCode : Prop :=
  (∀ s : State, s.run = .running → s.pc = s.mem.len →
    ∃ t, step s = .next t ∧ t = { s with run := .halted } ∧ t.result = some (.success s.stack)) ∧
  execute [] = some (.success []) ∧
  ∀ (code : List Byte) (k : Nat), (loop k (State.resetWith code)).run ≠ .aborted →
    (loop k (State.resetWith code)).pc ≤ code.length

/-- An unrecognized byte aborts (R172), and no operand is examined: with any other stack the next state is the same.
What `S` holds in Aborted is a free value (R174, log 5). The code memory is unchanged, and the bytecode `FF` fails. -/
def Obligations.StepAbortsOnUnrecognizedByte : Prop :=
  (∀ (s : State) (b : Byte), s.run = .running → s.mem.read? s.pc = some b → decodeByte b = none →
    ∃ t, (∀ S : List Word, step { s with stack := S } = .next t) ∧ t.AbortedBy .unrecognizedOpcode ∧ t.mem = s.mem) ∧
  execute [0xFF] = some .failure

/-- R28: reset enters Running; a step exists only in Running, so no step enters Running from another state or leaves a
terminal one; Halted is entered only by STOP or by `pc` reaching `LEN`; Aborted only by one of the two faults, each with
its cause. -/
def Obligations.RunStateTransitions : Prop :=
  (∀ code : List Byte, (State.resetWith code).run = .running) ∧
  ∀ s t : State, step s = .next t →
    s.run = .running ∧
    (t.run = .halted ↔ s.pc = s.mem.len ∨ ∃ b, s.mem.read? s.pc = some b ∧ decodeByte b = some .stop) ∧
    (t.run = .aborted ↔
      ∃ b, s.mem.read? s.pc = some b ∧
        ((decodeByte b = none ∧ t.cause = .unrecognizedOpcode) ∨
         ∃ op, decodeByte b = some op ∧ s.stack.length < op.pops ∧ t.cause = .stackUnderflow))

/-- A Running state has a step exactly when `pc <= LEN`; with `pc > LEN`, which the spec says never occurs, the model
stops by name (log 10); in Halted and Aborted it has no next state (log 9). Derived from R150, R154, R155. -/
def Obligations.StepExistsExactlyWhenRunningInsideCode : Prop :=
  ∀ s : State, (∃ t, step s = .next t) ↔ s.run = .running ∧ s.pc ≤ s.mem.len

/-- R84 with R65: a PUSHn whose operand bytes are all there pushes the Word with the value of the `n` bytes after the
opcode, read big-endian, and moves `pc` past them; nothing else changes. `n` is one of the seven widths. -/
def Obligations.PushReadsBigEndianOperand : Prop :=
  ∀ (s : State) (b : Byte) (op : OpCode), s.run = .running → s.mem.read? s.pc = some b → decodeByte b = some op →
    op.immBytes ≠ 0 → s.pc + 1 + op.immBytes ≤ s.mem.len →
    op.immBytes ∈ [1, 2, 4, 6, 10, 11, 32] ∧
    ∃ w : Word,
      step s = .next { s with stack := s.stack ++ [w], pc := s.pc + 1 + op.immBytes } ∧
      w.toNat = ∑ j ∈ Finset.range op.immBytes, (s.mem.byteAt (s.pc + 1 + j)).toNat * 256 ^ (op.immBytes - 1 - j)

/-- The model's choice for a truncated PUSHn is the spec's default (R85, D2, C2; log 2): nothing is pushed, `pc` moves
past the opcode byte only, nothing else changes. -/
def Obligations.TruncatedPushSkipsOpcodeByte : Prop :=
  ∀ (s : State) (b : Byte) (op : OpCode), s.run = .running → s.mem.read? s.pc = some b → decodeByte b = some op →
    op.immBytes ≠ 0 → s.mem.len < s.pc + 1 + op.immBytes →
    step s = .next { s with pc := s.pc + 1 }

/-! ### Invariants -/

/-- The invariant of the machine is kept by every step, of the machine and under any parameters (R7). -/
def Obligations.StepKeepsMachineInvariant : Prop :=
  (∀ s t : State, s.Inv → step s = .next t → t.Inv) ∧
  ∀ (p : Config.Params) (s t : State), s.Inv → stepWith p s = .next t → t.Inv

/-- The invariant holds right after reset, with any bytecode. -/
def Obligations.ResetMeetsMachineInvariant : Prop :=
  State.reset.Inv ∧ ∀ code : List Byte, (State.resetWith code).Inv

/-- R200: what reset sets, for any bytecode; `Code` and `LEN` are the supplied bytes. -/
def Obligations.ResetSetsStateAndCode : Prop :=
  ∀ code : List Byte,
    (State.resetWith code).pc = 0 ∧ (State.resetWith code).stack = [] ∧ (State.resetWith code).run = .running ∧
    (State.resetWith code).cause = .none ∧ (State.resetWith code).mem.len = code.length ∧
    ∀ a : Nat, (State.resetWith code).mem.read? a = code[a]?

/-- The model's representation of the code memory (log 8) is canonical: equal bytes are equal data. -/
def Obligations.EqualBytesAreEqualMemory : Prop :=
  ∀ m m' : Memory, m.wf = true → m'.wf = true → (∀ a, m.read? a = m'.read? a) → m = m'

/-- R41: no instruction, whether it completes or aborts, and no step changes the code memory: every address reads as
before, and none is added. -/
def Obligations.NoInstructionWritesCodeMemory : Prop :=
  ∀ s t : State, ((∃ i, exec i s = .next t) ∨ step s = .next t) →
    t.mem.len = s.mem.len ∧ ∀ a, t.mem.read? a = s.mem.read? a

/-- R21, R22: a step that leaves the machine Running moves `pc` forward, and not past `LEN`. -/
def Obligations.PcAdvancesWithinCode : Prop :=
  ∀ s t : State, step s = .next t → t.run = .running → s.pc < t.pc ∧ t.pc ≤ t.mem.len

/-- R27, D3, D4: a finite implementation whose sizes meet the constraints of R7 is exact, with any `OPMAP` and
`TRUNC_PUSH`. At every point of an execution it accepts, it is where the unbounded one is; until an abort, `pc` fits the
pc register and the depth fits the stack, so that the model's stop (log 19) is never met. A bytecode longer than
`CODE_MAX` is not executed. -/
def Obligations.FinitePcAndStackSuffice : Prop :=
  (∀ (p : Config.Params) (z : Config.Sizes) (code : List Byte), p.sizes = some z → z.Valid →
    code.length ≤ z.codeMax →
    executeWith p code = executeWith { p with sizes := none } code ∧
    ∀ k, loopWith p k (State.resetWith code) = loopWith { p with sizes := none } k (State.resetWith code) ∧
      stepWith p (loopWith p k (State.resetWith code)) ≠ .fault .exceedsSizes ∧
      ((loopWith p k (State.resetWith code)).run ≠ .aborted →
        (loopWith p k (State.resetWith code)).pc < 2 ^ z.pcw ∧
        (loopWith p k (State.resetWith code)).stack.length ≤ z.stackDepth)) ∧
  ∀ (p : Config.Params) (z : Config.Sizes) (code : List Byte), p.sizes = some z → z.codeMax < code.length →
    executeWith p code = none

/-! ### What every instruction does and leaves alone -/

/-- Every instruction, in every state, answers a next state: none stops or is refused. -/
def Obligations.EveryInstructionAnswersNext : Prop :=
  ∀ (i : Instr) (s : State), ∃ t, exec i s = .next t ∧ (t.run = s.run ∨ t.run = .halted ∨ t.run = .aborted)

/-- The frame of all 25 instructions when the abort is not taken: the code memory byte for byte, cause and the recorded
value are unchanged; `run` is unchanged except by STOP, which halts; `pc` moves by the instruction's length (by 0 in
STOP, D12, log 13); the stack loses exactly the operands and gains what the instruction pushes (the "pops" and "pushes"
columns of R63). -/
def Obligations.FrameOfCompletedInstruction : Prop :=
  ∀ (i : Instr) (s t : State), s.run = .running → exec i s = .next t → t.run ≠ .aborted →
    t.mem.len = s.mem.len ∧ (∀ a, t.mem.read? a = s.mem.read? a) ∧ t.cause = s.cause ∧ t.recorded = s.recorded ∧
    t.free = s.free ∧
    (t.run = .halted ↔ i = .stop) ∧
    (i = .stop → t.pc = s.pc) ∧ (i ≠ .stop → t.pc = s.pc + (encode i).length) ∧
    i.opcode.pops ≤ s.stack.length ∧
    ∃ pushed : List Word, t.stack = s.stack.take (s.stack.length - i.opcode.pops) ++ pushed ∧
      pushed.length = if i = .stop ∨ i = .pop ∨ (i.opcode.immBytes ≠ 0 ∧ i.imm = none) then 0 else 1

/-- R24: "No opcode may observe or mutate elements below the ones it explicitly pops": on two stacks that agree on the
popped Words only, of any depths, an instruction removes those Words and pushes the same one Word, or none, on what lay
below. -/
def Obligations.WordsBelowOperandsUntouched : Prop :=
  ∀ (i : Instr) (s : State) (below below' ops : List Word), s.run = .running → ops.length = i.opcode.pops →
    ∃ (t : State) (pushed : List Word),
      exec i { s with stack := below ++ ops } = .next { t with stack := below ++ pushed } ∧
      exec i { s with stack := below' ++ ops } = .next { t with stack := below' ++ pushed } ∧
      pushed.length ≤ 1 ∧ t.run ≠ .aborted

/-- R173: `StackUnderflow` is raised exactly when fewer Words than the "pops" column says are there, and it is the only
way an instruction aborts; STOP, PUSH0 and the PUSHn never raise it; the bytecode `50` (POP alone) fails. -/
def Obligations.UnderflowExactlyWhenOperandsMissing : Prop :=
  (∀ op ∈ [OpCode.stop, .push0, .push1, .push2, .push4, .push6, .push10, .push11, .push32], op.pops = 0) ∧
  OpCode.pop.pops = 1 ∧
  (∀ op ∈ [OpCode.add, .sub, .mul, .div, .sdiv, .mod, .smod, .exp, .signextend, .lt, .gt, .slt, .sgt], op.pops = 2) ∧
  (∀ op ∈ [OpCode.addmod, .mulmod], op.pops = 3) ∧
  (∀ (i : Instr) (s : State), s.run = .running →
    ∃ t, exec i s = .next t ∧ (t.run = .aborted ↔ s.stack.length < i.opcode.pops) ∧
      (t.run = .aborted → t.cause = .stackUnderflow)) ∧
  execute [0x50] = some .failure

/-- What a StackUnderflow records internally (R171, D9; log 17), and that the counter of free values moves on, so that
the next abort takes a fresh one (log 5): the model's choice. -/
def Obligations.UnderflowRecordsOpcodeAndPc : Prop :=
  ∀ (i : Instr) (s : State), s.stack.length < i.opcode.pops →
    ∃ t, exec i s = .next t ∧ t.recorded = some (.underflow i.opcode s.pc) ∧ t.free = s.free + 1

/-- `push` (R80) appends; `popN` (R81) fails exactly when too few Words are there, else it returns the most recent first
and leaves the rest. The last clause, "followed by pushing the returned Words back in reverse order restores `S`", is the
spec's inference, which R81 marks [derived: from rule R80]. -/
def Obligations.PopNReturnsMostRecentFirst : Prop :=
  (∀ (w : Word) (S : List Word), push w S = S ++ [w]) ∧
  (∀ (n : Nat) (S : List Word), popN n S = none ↔ S.length < n) ∧
  (∀ rest ops : List Word, popN ops.length (rest ++ ops.reverse) = some (ops, rest)) ∧
  ∀ (n : Nat) (S ops rest : List Word), popN n S = some (ops, rest) → ops.reverse.foldl (fun S w => push w S) rest = S

/-! ### Results: STOP and the stack instructions -/

/-- STOP halts, and so does the step that fetches it, whatever bytes follow; that `pc` stays is the model's choice (D12,
log 13). -/
def Obligations.StopHaltsAndChangesNothingElse : Prop :=
  (∀ s : State, exec .stop s = .next { s with run := .halted }) ∧
  ∀ (s : State) (b : Byte), s.run = .running → s.mem.read? s.pc = some b → decodeByte b = some .stop →
    step s = .next { s with run := .halted }

/-- R82: POP discards the top Word and advances by its one byte, `0x50` (given by the source); on an empty stack it
raises StackUnderflow. -/
def Obligations.PopDiscardsTop : Prop :=
  encode .pop = [0x50] ∧
  (∀ (s : State) (rest : List Word) (a : Word), s.stack = rest ++ [a] →
    exec .pop s = .next { s with stack := rest, pc := s.pc + 1 }) ∧
  ∀ s : State, s.stack = [] → ∃ t, exec .pop s = .next t ∧ t.AbortedBy .stackUnderflow ∧ t.mem = s.mem

/-- R83: PUSH0 pushes Word(0) and advances by 1; it is never truncated, also as the last byte of the code. The opcode
byte is D1's (log 1) and no part of this. -/
def Obligations.Push0PushesZero : Prop :=
  (∀ s : State, exec .push0 s = .next { s with stack := s.stack ++ [0], pc := s.pc + 1 }) ∧
  ∀ (s : State) (b : Byte), s.run = .running → s.mem.read? s.pc = some b → decodeByte b = some .push0 →
    step s = .next { s with stack := s.stack ++ [0], pc := s.pc + 1 }

/-- The meaning of each PUSHn on its decoded operand: the full form of R84 (R86 to R92), and the truncated form of R85
(D2, log 2). -/
def Obligations.PushnPushesItsImmediate : Prop :=
  ∀ (s : State) (w : Word),
    exec (.push1 (some w)) s = .next { s with stack := s.stack ++ [w], pc := s.pc + 2 } ∧
    exec (.push2 (some w)) s = .next { s with stack := s.stack ++ [w], pc := s.pc + 3 } ∧
    exec (.push4 (some w)) s = .next { s with stack := s.stack ++ [w], pc := s.pc + 5 } ∧
    exec (.push6 (some w)) s = .next { s with stack := s.stack ++ [w], pc := s.pc + 7 } ∧
    exec (.push10 (some w)) s = .next { s with stack := s.stack ++ [w], pc := s.pc + 11 } ∧
    exec (.push11 (some w)) s = .next { s with stack := s.stack ++ [w], pc := s.pc + 12 } ∧
    exec (.push32 (some w)) s = .next { s with stack := s.stack ++ [w], pc := s.pc + 33 } ∧
    ∀ i ∈ [Instr.push1 none, .push2 none, .push4 none, .push6 none, .push10 none, .push11 none, .push32 none],
      exec i s = .next { s with pc := s.pc + 1 }

/-! ### Results: the unsigned unit -/

/-- R101: ADD, with its opcode byte (given by the source), its result and its fault. -/
def Obligations.AddPushesSumModulo : Prop :=
  encode .add = [0x01] ∧
  (∀ (s : State) (rest : List Word) (a b : Word), s.stack = rest ++ [b, a] →
    ∃ w : Word, exec .add s = .next { s with stack := rest ++ [w], pc := s.pc + 1 } ∧
      w.toNat = (a.toNat + b.toNat) % 2 ^ 256) ∧
  ∀ s : State, s.stack.length < 2 → ∃ t, exec .add s = .next t ∧ t.AbortedBy .stackUnderflow ∧ t.mem = s.mem

/-- R102: SUB, first-popped minus second-popped, and its fault. The opcode byte is D1's (log 1) and no part of this. -/
def Obligations.SubPushesDifferenceModulo : Prop :=
  (∀ (s : State) (rest : List Word) (a b : Word), s.stack = rest ++ [b, a] →
    ∃ w : Word, exec .sub s = .next { s with stack := rest ++ [w], pc := s.pc + 1 } ∧
      (w.toNat : Int) = ((a.toNat : Int) - b.toNat) % 2 ^ 256) ∧
  ∀ s : State, s.stack.length < 2 → ∃ t, exec .sub s = .next t ∧ t.AbortedBy .stackUnderflow ∧ t.mem = s.mem

/-- R103: MUL and its fault. The opcode byte is D1's (log 1) and no part of this. -/
def Obligations.MulPushesProductModulo : Prop :=
  (∀ (s : State) (rest : List Word) (a b : Word), s.stack = rest ++ [b, a] →
    ∃ w : Word, exec .mul s = .next { s with stack := rest ++ [w], pc := s.pc + 1 } ∧
      w.toNat = a.toNat * b.toNat % 2 ^ 256) ∧
  ∀ s : State, s.stack.length < 2 → ∃ t, exec .mul s = .next t ∧ t.AbortedBy .stackUnderflow ∧ t.mem = s.mem

/-- R104: DIV is floor division, 0 for a zero divisor, and its fault. The opcode byte is D1's
(log 1) and no part of this. -/
def Obligations.DivPushesFloorQuotient : Prop :=
  (∀ (s : State) (rest : List Word) (a b : Word), s.stack = rest ++ [b, a] →
    ∃ w : Word, exec .div s = .next { s with stack := rest ++ [w], pc := s.pc + 1 } ∧
      (b = 0 → w = 0) ∧ (b ≠ 0 → w.toNat = a.toNat / b.toNat)) ∧
  ∀ s : State, s.stack.length < 2 → ∃ t, exec .div s = .next t ∧ t.AbortedBy .stackUnderflow ∧ t.mem = s.mem

/-- R105: MOD, 0 for a zero modulus, and its fault. The opcode byte is D1's (log 1) and no part of this. -/
def Obligations.ModPushesRemainder : Prop :=
  (∀ (s : State) (rest : List Word) (a b : Word), s.stack = rest ++ [b, a] →
    ∃ w : Word, exec .mod s = .next { s with stack := rest ++ [w], pc := s.pc + 1 } ∧
      (b = 0 → w = 0) ∧ (b ≠ 0 → w.toNat = a.toNat % b.toNat)) ∧
  ∀ s : State, s.stack.length < 2 → ∃ t, exec .mod s = .next t ∧ t.AbortedBy .stackUnderflow ∧ t.mem = s.mem

/-- ADDMOD with the exact sum (R106; exactness is decision D6, log 11), 0 for `N = 0`, and its fault. -/
def Obligations.AddmodReducesExactSum : Prop :=
  (∀ (s : State) (rest : List Word) (a b n : Word), s.stack = rest ++ [n, b, a] →
    ∃ w : Word, exec .addmod s = .next { s with stack := rest ++ [w], pc := s.pc + 1 } ∧
      (n = 0 → w = 0) ∧ (n ≠ 0 → w.toNat = (a.toNat + b.toNat) % n.toNat)) ∧
  ∀ s : State, s.stack.length < 3 → ∃ t, exec .addmod s = .next t ∧ t.AbortedBy .stackUnderflow ∧ t.mem = s.mem

/-- MULMOD with the exact product (R107; exactness is decision D6, log 11), 0 for `N = 0`, and its fault. -/
def Obligations.MulmodReducesExactProduct : Prop :=
  (∀ (s : State) (rest : List Word) (a b n : Word), s.stack = rest ++ [n, b, a] →
    ∃ w : Word, exec .mulmod s = .next { s with stack := rest ++ [w], pc := s.pc + 1 } ∧
      (n = 0 → w = 0) ∧ (n ≠ 0 → w.toNat = a.toNat * b.toNat % n.toNat)) ∧
  ∀ s : State, s.stack.length < 3 → ∃ t, exec .mulmod s = .next t ∧ t.AbortedBy .stackUnderflow ∧ t.mem = s.mem

/-- EXP: the loop of R108 gives the integer power modulo `2^256` for every base and every exponent; exponent 0 gives 1,
which is decision D7 (log 12). -/
def Obligations.ExpPushesPowerModulo : Prop :=
  (∀ (s : State) (rest : List Word) (a b : Word), s.stack = rest ++ [b, a] →
    ∃ w : Word, exec .exp s = .next { s with stack := rest ++ [w], pc := s.pc + 1 } ∧
      w.toNat = a.toNat ^ b.toNat % 2 ^ 256) ∧
  ∀ s : State, s.stack.length < 2 → ∃ t, exec .exp s = .next t ∧ t.AbortedBy .stackUnderflow ∧ t.mem = s.mem

/-- R110: ADD, then SUB with the same `b`, restores `a`. -/
def Obligations.AddThenSubRestores : Prop :=
  ∀ (s : State) (rest : List Word) (a b : Word), s.stack = rest ++ [b, b, a] →
    ∃ t, exec .add s = .next t ∧
      exec .sub t = .next { s with stack := rest ++ [a], pc := s.pc + 2 }

/-- R111: the quotient and the remainder that DIV and MOD push for a nonzero divisor satisfy the division identity,
exactly, over the integers. -/
def Obligations.DivModIdentity : Prop :=
  ∀ (s : State) (rest : List Word) (a b : Word), s.stack = rest ++ [b, a] → b ≠ 0 →
    ∃ q r : Word, exec .div s = .next { s with stack := rest ++ [q], pc := s.pc + 1 } ∧
      exec .mod s = .next { s with stack := rest ++ [r], pc := s.pc + 1 } ∧
      a.toNat = q.toNat * b.toNat + r.toNat ∧ r.toNat < b.toNat

/-- R112: a zero divisor or modulus gives Word(0) for any dividend, in all six instructions, and is no fault. -/
def Obligations.ZeroDivisorPushesZero : Prop :=
  (∀ (s : State) (rest : List Word) (a : Word), s.stack = rest ++ [0, a] →
    ∀ i ∈ [Instr.div, .mod, .sdiv, .smod],
      exec i s = .next { s with stack := rest ++ [0], pc := s.pc + 1 }) ∧
  ∀ (s : State) (rest : List Word) (a b : Word), s.stack = rest ++ [0, b, a] →
    ∀ i ∈ [Instr.addmod, .mulmod],
      exec i s = .next { s with stack := rest ++ [0], pc := s.pc + 1 }

/-! ### Results: the signed unit -/

/-- R120: `negate` is `(2^256 - x) mod 2^256`, equivalently the bitwise complement plus one, and its own inverse, on the
zero Word and on `MINS` too. -/
def Obligations.NegateIsSelfInverse : Prop :=
  (∀ x : Word, (negate x).toNat = (2 ^ 256 - x.toNat) % 2 ^ 256 ∧ negate x = ~~~x + 1 ∧ negate (negate x) = x) ∧
  negate 0 = 0 ∧ negate minS = minS

/-- `mag(x)`, read as unsigned, is the absolute value of the signed view, and at most `2^255`; bit 255 is the sign;
`negate` negates the signed view of every Word but `MINS` (R10, R120, R121, which mark it as derived). -/
def Obligations.MagIsAbsoluteSignedValue : Prop :=
  ∀ x : Word, (mag x).toNat = (toS x).natAbs ∧ (mag x).toNat ≤ 2 ^ 255 ∧ (isNeg x = true ↔ toS x < 0) ∧
    (x ≠ minS → toS (negate x) = -toS x)

/-- SDIV in the signed view, which the spec derives (R122): for a nonzero divisor the quotient truncated toward zero,
reduced modulo `2^256`, the overflow case `MINS / -1` included; 0 for a zero divisor; and its fault. -/
def Obligations.SdivTruncatesTowardZero : Prop :=
  (∀ (s : State) (rest : List Word) (a b : Word), s.stack = rest ++ [b, a] →
    ∃ w : Word, exec .sdiv s = .next { s with stack := rest ++ [w], pc := s.pc + 1 } ∧
      (b = 0 → w = 0) ∧ (b ≠ 0 → (w.toNat : Int) = (toS a).tdiv (toS b) % 2 ^ 256)) ∧
  ∀ s : State, s.stack.length < 2 → ∃ t, exec .sdiv s = .next t ∧ t.AbortedBy .stackUnderflow ∧ t.mem = s.mem

/-- SMOD in the signed view, which the spec derives (R123): for a nonzero modulus the remainder of the magnitudes with
the sign of the dividend; 0 for a zero modulus; with SDIV's quotient it gives the dividend back except where that
overflows; and its fault. -/
def Obligations.SmodTakesSignOfDividend : Prop :=
  (∀ (s : State) (rest : List Word) (a b : Word), s.stack = rest ++ [b, a] →
    ∃ w : Word, exec .smod s = .next { s with stack := rest ++ [w], pc := s.pc + 1 } ∧
      (b = 0 → w = 0) ∧
      (b ≠ 0 → toS w = (toS a).sign * ((toS a).natAbs % (toS b).natAbs : Nat) ∧
        toS a = (toS a).tdiv (toS b) * toS b + toS w)) ∧
  ∀ s : State, s.stack.length < 2 → ∃ t, exec .smod s = .next t ∧ t.AbortedBy .stackUnderflow ∧ t.mem = s.mem

/-! ### Results: sign extension -/

/-- SIGNEXTEND byte by byte (R130): `k > 31` leaves `x`, the whole Word `k` compared (D15, log 16); else the bytes up
to index `k` stay and every byte above is 0xFF or 0x00 by the high bit of byte `k`; and its fault. -/
def Obligations.SignextendRewritesBytesAboveK : Prop :=
  (∀ (s : State) (rest : List Word) (k x : Word), s.stack = rest ++ [x, k] →
    ∃ y : Word, exec .signextend s = .next { s with stack := rest ++ [y], pc := s.pc + 1 } ∧
      (31 < k.toNat → y = x) ∧
      (k.toNat ≤ 31 → ∀ j, j ≤ 31 → byteOf y j =
        if j ≤ k.toNat then byteOf x j else if 0x7F < (byteOf x k.toNat).toNat then 0xFF else 0x00)) ∧
  ∀ s : State, s.stack.length < 2 →
    ∃ t, exec .signextend s = .next t ∧ t.AbortedBy .stackUnderflow ∧ t.mem = s.mem

/-- SIGNEXTEND as arithmetic, which the spec derives (R130): for `k <= 31` the signed value of the result is that of the
low `8k + 8` bits of `x`; for `k >= 31` it is a no-op; and it is idempotent. -/
def Obligations.SignextendKeepsLowBitsSigned : Prop :=
  ∀ k x : Word,
    (k.toNat ≤ 31 → (signextendWord k x).toNat =
      if x.toNat % 2 ^ (8 * k.toNat + 8) < 2 ^ (8 * k.toNat + 7) then x.toNat % 2 ^ (8 * k.toNat + 8)
      else x.toNat % 2 ^ (8 * k.toNat + 8) + 2 ^ 256 - 2 ^ (8 * k.toNat + 8)) ∧
    (31 ≤ k.toNat → signextendWord k x = x) ∧
    signextendWord k (signextendWord k x) = signextendWord k x

/-! ### Results: comparison -/

/-- R141: LT pushes 1 if `a < b` unsigned, else 0, and its fault. The opcode byte is D1's (log 1) and no part of this. -/
def Obligations.LtComparesUnsigned : Prop :=
  (∀ (s : State) (rest : List Word) (a b : Word), s.stack = rest ++ [b, a] →
    exec .lt s = .next { s with stack := rest ++ [if a.toNat < b.toNat then 1 else 0], pc := s.pc + 1 }) ∧
  ∀ s : State, s.stack.length < 2 → ∃ t, exec .lt s = .next t ∧ t.AbortedBy .stackUnderflow ∧ t.mem = s.mem

/-- R142: GT pushes 1 if `a > b` unsigned, else 0, and its fault. The opcode byte is D1's (log 1) and no part of this. -/
def Obligations.GtComparesUnsigned : Prop :=
  (∀ (s : State) (rest : List Word) (a b : Word), s.stack = rest ++ [b, a] →
    exec .gt s = .next { s with stack := rest ++ [if b.toNat < a.toNat then 1 else 0], pc := s.pc + 1 }) ∧
  ∀ s : State, s.stack.length < 2 → ∃ t, exec .gt s = .next t ∧ t.AbortedBy .stackUnderflow ∧ t.mem = s.mem

/-- SLT in the signed view, which the spec derives from its four cases (R143): 1 if `toS a < toS b`, else 0; and its
fault. -/
def Obligations.SltComparesSigned : Prop :=
  (∀ (s : State) (rest : List Word) (a b : Word), s.stack = rest ++ [b, a] →
    exec .slt s = .next { s with stack := rest ++ [if toS a < toS b then 1 else 0], pc := s.pc + 1 }) ∧
  ∀ s : State, s.stack.length < 2 → ∃ t, exec .slt s = .next t ∧ t.AbortedBy .stackUnderflow ∧ t.mem = s.mem

/-- SGT in the signed view (R144, written out by decision D16, log 16): 1 if `toS a > toS b`, else 0; and its fault. -/
def Obligations.SgtComparesSigned : Prop :=
  (∀ (s : State) (rest : List Word) (a b : Word), s.stack = rest ++ [b, a] →
    exec .sgt s = .next { s with stack := rest ++ [if toS b < toS a then 1 else 0], pc := s.pc + 1 }) ∧
  ∀ s : State, s.stack.length < 2 → ∃ t, exec .sgt s = .next t ∧ t.AbortedBy .stackUnderflow ∧ t.mem = s.mem

/-- R145: for different operands exactly one of LT and GT pushes 1, the other 0, and likewise SLT and SGT; for equal
operands all four push 0. -/
def Obligations.ComparisonTotality : Prop :=
  ∀ (s : State) (rest : List Word) (a b : Word), s.stack = rest ++ [b, a] →
    ∃ l g sl sg : Word,
      exec .lt s = .next { s with stack := rest ++ [l], pc := s.pc + 1 } ∧
      exec .gt s = .next { s with stack := rest ++ [g], pc := s.pc + 1 } ∧
      exec .slt s = .next { s with stack := rest ++ [sl], pc := s.pc + 1 } ∧
      exec .sgt s = .next { s with stack := rest ++ [sg], pc := s.pc + 1 } ∧
      (a ≠ b → ((l = 1 ∧ g = 0) ∨ (l = 0 ∧ g = 1)) ∧ ((sl = 1 ∧ sg = 0) ∨ (sl = 0 ∧ sg = 1))) ∧
      (a = b → l = 0 ∧ g = 0 ∧ sl = 0 ∧ sg = 0)

/-- The spec's inference R146: the signed and the unsigned comparison push the same Word exactly when the operands have
the same sign bit. -/
def Obligations.SignedAndUnsignedComparisonAgree : Prop :=
  ∀ a b : Word, (ltWord a b = sltWord a b ↔ isNeg a = isNeg b) ∧ (gtWord a b = sgtWord a b ↔ isNeg a = isNeg b)

/-! ### Whole executions -/

/-- The spec's inferences R156 and R160, with any `OPMAP`, any sizes that meet R7 and the default of `TRUNC_PUSH`: every
execution, of any bytecode the implementation accepts, is in a terminal state after at most `LEN + 1` steps and stays
there, with a result. The machine with the default parameters accepts every bytecode, so `execute` is total. -/
def Obligations.EveryExecutionTerminates : Prop :=
  (∀ (p : Config.Params) (code : List Byte), p.truncPush = .opcodeOnly → (∀ z, p.sizes = some z → z.Valid) →
    accepts p code = true →
    (∀ k, code.length + 1 ≤ k →
      (loopWith p k (State.resetWith code)).Terminal ∧
      loopWith p k (State.resetWith code) = loopWith p (code.length + 1) (State.resetWith code)) ∧
    ∃ r, executeWith p code = some r) ∧
  ∀ code : List Byte, ∃ r, execute code = some r

/-- R161: if an execution halts by STOP or aborts at address `p`, and no PUSHn on the way was truncated, then every
bytecode longer than `p` that agrees on the addresses `0 .. p` has the same result. -/
def Obligations.ResultDependsOnFetchedBytesOnly : Prop :=
  ∀ (code code' : List Byte) (k p : Nat),
    (loop k (State.resetWith code)).run = .running → (loop k (State.resetWith code)).pc = p → p < code.length →
    (loop (k + 1) (State.resetWith code)).Terminal →
    (∀ j, j < k → ¬ (loop j (State.resetWith code)).TruncatedPush opmap) →
    p < code'.length → (∀ a, a ≤ p → code[a]? = code'[a]?) →
    execute code' = execute code

/-- R157, D5 (logs 5, 6): the result of a run depends neither on the counter of the free values nor on what a failed
run leaves: two runs that differ only in the counter give the same result. -/
def Obligations.ResultIndependentOfFreeValues : Prop :=
  ∀ (s : State) (n k : Nat), (loop k { s with free := n }).result = (loop k s).result

/-! ### The other value of TRUNC_PUSH -/

/-- Why the spec rejects the other value of `TRUNC_PUSH` that the source names (R85, D2; log 2): under it a truncated
PUSHn "would be decoded for ever". The state fits the sizes, if there are any. -/
def Obligations.TruncatedPushStayingPutNeverEnds : Prop :=
  ∀ (p : Config.Params) (s : State), p.truncPush = .staysPut → (∀ z, p.sizes = some z → s.fits z = true) →
    s.TruncatedPush p.opmap →
    stepWith p s = .next s ∧ ∀ k, loopWith p k s = s
end

