-- ==== Sys2Proof/Laws/Alu.lean ====
section
/-! SUPPORT. The views of a Word that the signed rules use, pushed down to numbers and to the library's operations. -/

namespace Sys2Proof.Machine

/-- `neg?(w)` by value (42_arithmetic_signed.md R121). -/
theorem isNeg_eq (w : Word) : isNeg w = decide (2 ^ 255 ≤ w.toNat) := by
  have := w.isLt
  simp only [isNeg, bitsOf, Nat.sub_self, Nat.zero_add, Nat.pow_one, decide_eq_decide]
  omega

/-- The library's signed reading of a bit vector is the signed view. -/
theorem toS_eq_toInt (w : Word) : toS w = w.toInt := by
  have := w.isLt
  simp only [toS, BitVec.toInt]
  split <;> split <;> omega

/-- The signed view of a Word whose bit 255 is clear (00_scope.md R10). -/
theorem toS_of_lt {w : Word} (h : w.toNat < 2 ^ 255) : toS w = w.toNat := if_pos h

/-- The signed view of a Word whose bit 255 is set (00_scope.md R10). -/
theorem toS_of_ge {w : Word} (h : 2 ^ 255 ≤ w.toNat) : toS w = (w.toNat : Int) - 2 ^ 256 :=
  if_neg (Nat.not_lt.mpr h)

/-- `negate(x)` by value (42_arithmetic_signed.md R120). -/
theorem negate_toNat (x : Word) : (negate x).toNat = (2 ^ 256 - x.toNat) % 2 ^ 256 := by
  simp [negate, modulus]

/-- The library's negation of a bit vector is `negate`. -/
theorem negate_eq_neg (x : Word) : negate x = -x := by
  apply BitVec.eq_of_toNat_eq
  rw [negate_toNat, BitVec.toNat_neg]

/-- `byte(w, j)` by value. -/
theorem byteOf_toNat (w : Word) (j : Nat) : (byteOf w j).toNat = w.toNat / 2 ^ (8 * j) % 256 := by
  simp only [byteOf, bitsOf, BitVec.toNat_ofNat, show 8 * j + 7 - 8 * j + 1 = 8 by omega]
  omega

@[simp] theorem truthWord_true : truthWord true = 1 := rfl
@[simp] theorem truthWord_false : truthWord false = 0 := rfl

end Sys2Proof.Machine
end

