-- ==== Sys2Proof/Laws/Decode.lean ====
section
/-! SUPPORT. Bytes and numbers big-endian, and the parts of an instruction. -/

namespace Sys2Proof

@[simp] theorem beNat_nil : beNat [] = 0 := rfl

/-- One more byte at the least significant end. -/
theorem beNat_append_singleton (bs : List Byte) (b : Byte) : beNat (bs ++ [b]) = beNat bs * 256 + b.toNat := by
  simp [beNat]

/-- The first byte is the most significant. -/
theorem beNat_cons (b : Byte) (bs : List Byte) : beNat (b :: bs) = b.toNat * 256 ^ bs.length + beNat bs := by
  induction bs using List.reverseRecOn with
  | nil => simp [beNat]
  | append_singleton bs c ih =>
    rw [← List.cons_append, beNat_append_singleton, ih, beNat_append_singleton, List.length_append]
    simp only [List.length_singleton, pow_succ]
    ring

/-- `n` bytes give a value below `256^n`. -/
theorem beNat_lt (bs : List Byte) : beNat bs < 256 ^ bs.length := by
  induction bs with
  | nil => simp
  | cons b bs ih =>
    rw [beNat_cons, List.length_cons, pow_succ]
    have hb : b.toNat < 256 := b.isLt
    nlinarith

@[simp] theorem beBytes_length (n v : Nat) : (beBytes n v).length = n := by
  induction n with
  | zero => rfl
  | succ n ih => simp [beBytes, ih]

/-- Writing `v` in `n` bytes and reading it back keeps `v` modulo `256^n`. -/
theorem beNat_beBytes (n v : Nat) : beNat (beBytes n v) = v % 256 ^ n := by
  induction n with
  | zero => simp [beBytes, Nat.mod_one]
  | succ n ih =>
    rw [beBytes, beNat_cons, ih, beBytes_length, BitVec.toNat_ofNat, pow_succ 256 n,
      Nat.mod_mul (x := v) (a := 256 ^ n) (b := 256), Nat.mul_comm, Nat.add_comm]

/-- Reading bytes and writing them back gives the bytes. -/
theorem beBytes_beNat (bs : List Byte) : beBytes bs.length (beNat bs) = bs := by
  have key : ∀ (n v w : Nat), v % 256 ^ n = w % 256 ^ n → beBytes n v = beBytes n w := by
    intro n
    induction n with
    | zero => intros; rfl
    | succ n ih =>
      intro v w h
      rw [pow_succ, Nat.mod_mul, Nat.mod_mul] at h
      have hv : v % 256 ^ n < 256 ^ n := Nat.mod_lt _ (by positivity)
      have hw : w % 256 ^ n < 256 ^ n := Nat.mod_lt _ (by positivity)
      have h1 : v % 256 ^ n = w % 256 ^ n := by
        have := congrArg (· % 256 ^ n) h
        simpa [Nat.add_mul_mod_self_left] using this
      have h2 : v / 256 ^ n % 256 = w / 256 ^ n % 256 := by
        rw [h1] at h
        exact Nat.eq_of_mul_eq_mul_left (by positivity : 0 < 256 ^ n) (Nat.add_left_cancel h)
      simp only [beBytes, List.cons.injEq]
      exact ⟨BitVec.eq_of_toNat_eq (by simpa using h2), ih v w h1⟩
  induction bs with
  | nil => rfl
  | cons b bs ih =>
    have hlt := beNat_lt bs
    have hp : 0 < 256 ^ bs.length := by positivity
    rw [beNat_cons, List.length_cons, beBytes]
    congr 1
    · apply BitVec.eq_of_toNat_eq
      rw [BitVec.toNat_ofNat, Nat.mul_comm, Nat.mul_add_div hp, Nat.div_eq_of_lt hlt, Nat.add_zero]
      exact Nat.mod_eq_of_lt b.isLt
    · exact (key _ _ _ (by simp)).trans ih

@[simp] theorem OpCode.instr_opcode (op : OpCode) (imm : Option Word) : (op.instr imm).opcode = op := by
  cases op <;> rfl

/-- An instruction is its OpCode and its immediate. -/
@[simp] theorem OpCode.opcode_instr_imm (i : Instr) : i.opcode.instr i.imm = i := by
  cases i <;> rfl

/-- Format `O` has no immediate; a PUSHn carries the one it is given. -/
theorem OpCode.instr_imm (op : OpCode) (imm : Option Word) :
    (op.instr imm).imm = if op.immBytes = 0 then none else imm := by
  cases op <;> rfl

/-- The check of an instruction says that its immediate is a value of `n` bytes. -/
theorem wellFormed_iff (i : Instr) : WellFormed i = true ↔ ∀ w, i.imm = some w → w.toNat < 256 ^ i.opcode.immBytes := by
  cases i with
  | push1 imm | push2 imm | push4 imm | push6 imm | push10 imm | push11 imm | push32 imm =>
    cases imm <;> simp [WellFormed, immFits, Instr.imm, Instr.opcode, OpCode.immBytes]
  | _ => simp [WellFormed, Instr.imm]

/-- No immediate is longer than a Word. -/
theorem OpCode.immBytes_le (op : OpCode) : op.immBytes ≤ 32 := by
  cases op <;> decide

/-- The decoder on a byte and what follows it. -/
theorem decodeWith_cons (m : Config.OpMap) (b : Byte) (rest : List Byte) :
    decodeWith m (b :: rest) = match decodeByteWith m b with
      | none => .error (.unrecognized b)
      | some op => .ok (takeOperand op rest) := rfl

/-- The three forms of an operand. -/
theorem takeOperand_cases (op : OpCode) (rest : List Byte) :
    (op.immBytes = 0 ∧ takeOperand op rest = (op.instr none, rest)) ∨
    (op.immBytes ≠ 0 ∧ op.immBytes ≤ rest.length ∧ takeOperand op rest =
      (op.instr (some (BitVec.ofNat 256 (beNat (rest.take op.immBytes)))), rest.drop op.immBytes)) ∨
    (op.immBytes ≠ 0 ∧ rest.length < op.immBytes ∧ takeOperand op rest = (op.instr none, rest)) := by
  unfold takeOperand
  split
  · exact .inl ⟨‹_›, rfl⟩
  · split
    · exact .inr (.inl ⟨‹_›, ‹_›, rfl⟩)
    · exact .inr (.inr ⟨‹_›, Nat.lt_of_not_le ‹_›, rfl⟩)

end Sys2Proof
end

