-- ==== Sys2Proof/Laws/State.lean ====
section
/-! SUPPORT. One lemma per field and update of `State`: later proofs rewrite with these and never unfold an update. -/

namespace Sys2Proof.Machine

variable (s : State)

section Advance
variable (len : Nat) (S : List Word)
@[simp] theorem State.advance_pc : (s.advance len S).pc = s.pc + len := rfl
@[simp] theorem State.advance_stack : (s.advance len S).stack = S := rfl
@[simp] theorem State.advance_run : (s.advance len S).run = s.run := rfl
@[simp] theorem State.advance_cause : (s.advance len S).cause = s.cause := rfl
@[simp] theorem State.advance_recorded : (s.advance len S).recorded = s.recorded := rfl
@[simp] theorem State.advance_mem : (s.advance len S).mem = s.mem := rfl
@[simp] theorem State.advance_free : (s.advance len S).free = s.free := rfl
end Advance

section Raise
variable (c : Cause) (info : Recorded)
@[simp] theorem State.raise_run : (s.raise c info).run = .aborted := rfl
@[simp] theorem State.raise_cause : (s.raise c info).cause = c := rfl
@[simp] theorem State.raise_recorded : (s.raise c info).recorded = some info := rfl
@[simp] theorem State.raise_mem : (s.raise c info).mem = s.mem := rfl
@[simp] theorem State.raise_free : (s.raise c info).free = s.free + 1 := rfl
end Raise

section RaiseByName
variable (b : Byte) (op : OpCode)
@[simp] theorem State.raiseUnrecognized_run : (s.raiseUnrecognized b).run = .aborted := rfl
@[simp] theorem State.raiseUnrecognized_cause : (s.raiseUnrecognized b).cause = .unrecognizedOpcode := rfl
@[simp] theorem State.raiseUnrecognized_recorded :
    (s.raiseUnrecognized b).recorded = some (.unrecognized b s.pc) := rfl
@[simp] theorem State.raiseUnrecognized_mem : (s.raiseUnrecognized b).mem = s.mem := rfl
@[simp] theorem State.raiseUnderflow_run : (s.raiseUnderflow op).run = .aborted := rfl
@[simp] theorem State.raiseUnderflow_cause : (s.raiseUnderflow op).cause = .stackUnderflow := rfl
@[simp] theorem State.raiseUnderflow_recorded :
    (s.raiseUnderflow op).recorded = some (.underflow op s.pc) := rfl
@[simp] theorem State.raiseUnderflow_mem : (s.raiseUnderflow op).mem = s.mem := rfl
end RaiseByName

section Halt
@[simp] theorem State.halt_pc : s.halt.pc = s.pc := rfl
@[simp] theorem State.halt_stack : s.halt.stack = s.stack := rfl
@[simp] theorem State.halt_run : s.halt.run = .halted := rfl
@[simp] theorem State.halt_cause : s.halt.cause = s.cause := rfl
@[simp] theorem State.halt_recorded : s.halt.recorded = s.recorded := rfl
@[simp] theorem State.halt_mem : s.halt.mem = s.mem := rfl
@[simp] theorem State.halt_free : s.halt.free = s.free := rfl
end Halt

section Reset
variable (code : List Byte)
@[simp] theorem State.resetWith_pc : (State.resetWith code).pc = 0 := rfl
@[simp] theorem State.resetWith_stack : (State.resetWith code).stack = [] := rfl
@[simp] theorem State.resetWith_run : (State.resetWith code).run = .running := rfl
@[simp] theorem State.resetWith_cause : (State.resetWith code).cause = .none := rfl
@[simp] theorem State.resetWith_recorded : (State.resetWith code).recorded = none := rfl
@[simp] theorem State.resetWith_mem : (State.resetWith code).mem = Memory.ofBytes code := rfl
@[simp] theorem State.resetWith_free : (State.resetWith code).free = 0 := rfl
end Reset

section FetchWord
variable (nbits w : Nat)
@[simp] theorem State.withFetchWord_pc : (s.withFetchWord nbits w).pc = s.pc := rfl
@[simp] theorem State.withFetchWord_stack : (s.withFetchWord nbits w).stack = s.stack := rfl
@[simp] theorem State.withFetchWord_run : (s.withFetchWord nbits w).run = .running := rfl
@[simp] theorem State.withFetchWord_mem :
    (s.withFetchWord nbits w).mem = s.mem.writeBytes s.pc (tableBytes nbits w Config.maxInstrBytes) := rfl
end FetchWord

end Sys2Proof.Machine
end

