-- ==== Sys2Proof/Laws/Ops.lean ====
section
/-! SUPPORT. What each shared operation over the stack can do, said once. -/

namespace Sys2Proof.Machine

/-- `popN` on a stack that holds the operands on top: the operands most recent first, and the rest. -/
theorem popN_append (rest ops : List Word) : popN ops.length (rest ++ ops.reverse) = some (ops, rest) := by
  simp [popN]

/-- `Underflow` is exactly a stack with fewer than `n` Words. -/
theorem popN_eq_none {n : Nat} {S : List Word} : popN n S = none ↔ S.length < n := by
  unfold popN; split <;> simp_all

/-- What `popN` returns when it succeeds. -/
theorem popN_of_le {n : Nat} {S : List Word} (h : n ≤ S.length) :
    popN n S = some ((S.drop (S.length - n)).reverse, S.take (S.length - n)) := by
  simp [popN, Nat.not_lt.mpr h]

/-- The default truncated PUSHn. -/
@[simp] theorem truncatedPush_opcodeOnly (s : State) :
    truncatedPush .opcodeOnly s = .next (s.advance 1 s.stack) := rfl

/-- The truncated PUSHn that stays put. -/
@[simp] theorem truncatedPush_staysPut (s : State) : truncatedPush .staysPut s = .next s := rfl

/-- A two-operand instruction: underflow, or the result of the two top Words in place of them. -/
theorem binary_eq (op : OpCode) (f : Word → Word → Word) (s : State) :
    (s.stack.length < 2 ∧ binary op f s = .next (s.raiseUnderflow op)) ∨
    ∃ rest a b, s.stack = rest ++ [b, a] ∧ binary op f s = .next (s.advance 1 (rest ++ [f a b])) := by
  rcases Nat.lt_or_ge s.stack.length 2 with h | h
  · exact .inl ⟨h, by simp [binary, popN_eq_none.mpr h]⟩
  · obtain ⟨b, a, hd⟩ : ∃ b a, s.stack.drop (s.stack.length - 2) = [b, a] := by
      have : (s.stack.drop (s.stack.length - 2)).length = 2 := by simp; omega
      match hl : s.stack.drop (s.stack.length - 2), this with
      | [b, a], _ => exact ⟨b, a, rfl⟩
    refine .inr ⟨s.stack.take (s.stack.length - 2), a, b, ?_, ?_⟩
    · rw [← hd, List.take_append_drop]
    · simp [binary, popN_of_le h, hd, push]

/-- A three-operand instruction: underflow, or the result of the three top Words in place of them. -/
theorem ternary_eq (op : OpCode) (f : Word → Word → Word → Word) (s : State) :
    (s.stack.length < 3 ∧ ternary op f s = .next (s.raiseUnderflow op)) ∨
    ∃ rest a b n, s.stack = rest ++ [n, b, a] ∧ ternary op f s = .next (s.advance 1 (rest ++ [f a b n])) := by
  rcases Nat.lt_or_ge s.stack.length 3 with h | h
  · exact .inl ⟨h, by simp [ternary, popN_eq_none.mpr h]⟩
  · obtain ⟨n, b, a, hd⟩ : ∃ n b a, s.stack.drop (s.stack.length - 3) = [n, b, a] := by
      have : (s.stack.drop (s.stack.length - 3)).length = 3 := by simp; omega
      match hl : s.stack.drop (s.stack.length - 3), this with
      | [n, b, a], _ => exact ⟨n, b, a, rfl⟩
    refine .inr ⟨s.stack.take (s.stack.length - 3), a, b, n, ?_, ?_⟩
    · rw [← hd, List.take_append_drop]
    · simp [ternary, popN_of_le h, hd, push]

/-- A two-operand instruction on a stack with its operands on top. -/
theorem binary_append (op : OpCode) (f : Word → Word → Word) {s : State} {rest : List Word} {a b : Word}
    (h : s.stack = rest ++ [b, a]) : binary op f s = .next (s.advance 1 (rest ++ [f a b])) := by
  have := popN_append rest [a, b]
  simp_all [binary, push]

/-- A three-operand instruction on a stack with its operands on top. -/
theorem ternary_append (op : OpCode) (f : Word → Word → Word → Word) {s : State} {rest : List Word}
    {a b n : Word} (h : s.stack = rest ++ [n, b, a]) :
    ternary op f s = .next (s.advance 1 (rest ++ [f a b n])) := by
  have := popN_append rest [a, b, n]
  simp_all [ternary, push]

/-- A two-operand instruction with fewer than two Words. -/
theorem binary_underflow (op : OpCode) (f : Word → Word → Word) {s : State} (h : s.stack.length < 2) :
    binary op f s = .next (s.raiseUnderflow op) := by
  simp [binary, popN_eq_none.mpr h]

/-- A three-operand instruction with fewer than three Words. -/
theorem ternary_underflow (op : OpCode) (f : Word → Word → Word → Word) {s : State} (h : s.stack.length < 3) :
    ternary op f s = .next (s.raiseUnderflow op) := by
  simp [ternary, popN_eq_none.mpr h]

end Sys2Proof.Machine
end

