-- ==== Sys2Proof/Laws/Exec.lean ====
section
/-! SUPPORT. What an instruction's meaning can do, said once for all 25: every invariant and frame is read off
`exec_shape`, and no proof unfolds a meaning again. -/

namespace Sys2Proof.Machine

/-- The shape of a meaning other than STOP: `n` operands, a length, and the Words pushed as a function `f` of the
operands (oldest first) alone. -/
def HasShape (op : OpCode) (n len : Nat) (f : List Word → List Word) (m : State → Host.Outcome State Fault Refusal) :
    Prop :=
  ∀ s, (s.stack.length < n ∧ m s = .next (s.raiseUnderflow op)) ∨
    ∃ rest ops, s.stack = rest ++ ops ∧ ops.length = n ∧ m s = .next (s.advance len (rest ++ f ops))

/-- The operands of a two-operand function taken from a list. -/
def pushOf2 (f : Word → Word → Word) : List Word → List Word
  | [b, a] => [f a b]
  | _ => []

/-- The operands of a three-operand function taken from a list. -/
def pushOf3 (f : Word → Word → Word → Word) : List Word → List Word
  | [n, b, a] => [f a b n]
  | _ => []

theorem pushOf2_length (f : Word → Word → Word) {ops : List Word} (h : ops.length = 2) :
    (pushOf2 f ops).length = 1 := by
  match ops, h with
  | [_, _], _ => rfl

theorem pushOf3_length (f : Word → Word → Word → Word) {ops : List Word} (h : ops.length = 3) :
    (pushOf3 f ops).length = 1 := by
  match ops, h with
  | [_, _, _], _ => rfl

theorem binary_shape (op : OpCode) (f : Word → Word → Word) : HasShape op 2 1 (pushOf2 f) (binary op f) := by
  intro s
  rcases binary_eq op f s with h | ⟨rest, a, b, hs, hn⟩
  · exact .inl h
  · exact .inr ⟨rest, [b, a], hs, rfl, hn⟩

theorem ternary_shape (op : OpCode) (f : Word → Word → Word → Word) :
    HasShape op 3 1 (pushOf3 f) (ternary op f) := by
  intro s
  rcases ternary_eq op f s with h | ⟨rest, a, b, n, hs, hn⟩
  · exact .inl h
  · exact .inr ⟨rest, [n, b, a], hs, rfl, hn⟩

theorem pushImm_shape (op : OpCode) (n : Nat) (w : Word) : HasShape op 0 (1 + n) (fun _ => [w]) (pushImm n (some w)) :=
  fun s => .inr ⟨s.stack, [], by simp, rfl, rfl⟩

theorem pushImm_truncated_shape (op : OpCode) (n : Nat) : HasShape op 0 1 (fun _ => []) (pushImm n none) :=
  fun s => .inr ⟨s.stack, [], by simp, rfl, by simp [pushImm, defaultParams]⟩

theorem execPop_shape : HasShape .pop 1 1 (fun _ => []) execPop := by
  intro s
  rcases Nat.lt_or_ge s.stack.length 1 with h | h
  · exact .inl ⟨h, by simp [execPop, popN_eq_none.mpr h]⟩
  · exact .inr ⟨s.stack.take (s.stack.length - 1), s.stack.drop (s.stack.length - 1), by simp, by simp; omega,
      by simp [execPop, popN_of_le h]⟩

theorem execPush0_shape : HasShape .push0 0 1 (fun _ => [0]) execPush0 :=
  fun s => .inr ⟨s.stack, [], by simp, rfl, rfl⟩

/-- Every instruction but STOP takes `pops` operands, advances by its size, pushes as many Words as its "pushes" column
says, which depend on the operands alone (a PUSHn's immediate is part of the instruction), and touches nothing else;
with too few operands it raises `StackUnderflow`. -/
theorem exec_shape (i : Instr) (h : i ≠ .stop) :
    ∃ f, (∀ ops, ops.length = i.opcode.pops → (f ops).length = i.pushes) ∧
      HasShape i.opcode i.opcode.pops i.size f (exec i) := by
  cases i with
  | stop => exact absurd rfl h
  | pop => exact ⟨_, fun _ _ => rfl, execPop_shape⟩
  | push0 => exact ⟨_, fun _ _ => rfl, execPush0_shape⟩
  | addmod => exact ⟨_, fun _ h => pushOf3_length addmodWord h, ternary_shape _ _⟩
  | mulmod => exact ⟨_, fun _ h => pushOf3_length mulmodWord h, ternary_shape _ _⟩
  | push1 imm | push2 imm | push4 imm | push6 imm | push10 imm | push11 imm | push32 imm =>
    cases imm with
    | none => exact ⟨fun _ => [], fun _ _ => rfl, pushImm_truncated_shape _ 1⟩ -- the same effect for every `n`
    | some w => exact ⟨fun _ => [w], fun _ _ => rfl, pushImm_shape _ _ w⟩
  | add => exact ⟨_, fun _ h => pushOf2_length addWord h, binary_shape _ _⟩
  | sub => exact ⟨_, fun _ h => pushOf2_length subWord h, binary_shape _ _⟩
  | mul => exact ⟨_, fun _ h => pushOf2_length mulWord h, binary_shape _ _⟩
  | div => exact ⟨_, fun _ h => pushOf2_length divWord h, binary_shape _ _⟩
  | mod => exact ⟨_, fun _ h => pushOf2_length modWord h, binary_shape _ _⟩
  | exp => exact ⟨_, fun _ h => pushOf2_length expWord h, binary_shape _ _⟩
  | sdiv => exact ⟨_, fun _ h => pushOf2_length sdivWord h, binary_shape _ _⟩
  | smod => exact ⟨_, fun _ h => pushOf2_length smodWord h, binary_shape _ _⟩
  | signextend => exact ⟨_, fun _ h => pushOf2_length signextendWord h, binary_shape _ _⟩
  | lt => exact ⟨_, fun _ h => pushOf2_length ltWord h, binary_shape _ _⟩
  | gt => exact ⟨_, fun _ h => pushOf2_length gtWord h, binary_shape _ _⟩
  | slt => exact ⟨_, fun _ h => pushOf2_length sltWord h, binary_shape _ _⟩
  | sgt => exact ⟨_, fun _ h => pushOf2_length sgtWord h, binary_shape _ _⟩

/-- STOP. -/
theorem exec_stop (s : State) : exec .stop s = .next s.halt := rfl

/-- The one inversion lemma of `exec`: if it answers `next t`, it halted, raised `StackUnderflow`, or completed. -/
theorem exec_cases {i : Instr} {s t : State} (h : exec i s = .next t) :
    (i = .stop ∧ t = s.halt) ∨
    (s.stack.length < i.opcode.pops ∧ t = s.raiseUnderflow i.opcode) ∨
    (i ≠ .stop ∧ ∃ rest ops pushed, s.stack = rest ++ ops ∧ ops.length = i.opcode.pops ∧ pushed.length = i.pushes ∧
      t = s.advance i.size (rest ++ pushed)) := by
  by_cases hi : i = .stop
  · subst hi
    rw [exec_stop] at h
    exact .inl ⟨rfl, by simpa using h.symm⟩
  · obtain ⟨f, hf, hs⟩ := exec_shape i hi
    rcases hs s with ⟨hl, he⟩ | ⟨rest, ops, h1, h2, he⟩
    · exact .inr (.inl ⟨hl, by simpa using (he.symm.trans h).symm⟩)
    · exact .inr (.inr ⟨hi, rest, ops, f ops, h1, h2, hf ops h2, by simpa using (he.symm.trans h).symm⟩)

/-- No instruction writes the code memory (20_memory.md R41). -/
theorem exec_mem {i : Instr} {s t : State} (h : exec i s = .next t) : t.mem = s.mem := by
  rcases exec_cases h with ⟨rfl, rfl⟩ | ⟨-, rfl⟩ | ⟨-, rest, ops, pushed, -, -, -, rfl⟩ <;> rfl

/-- `exec` always answers a next state. -/
theorem exec_next (i : Instr) (s : State) : ∃ t, exec i s = .next t := by
  by_cases hi : i = .stop
  · subst hi; exact ⟨_, rfl⟩
  · obtain ⟨f, -, hs⟩ := exec_shape i hi
    rcases hs s with ⟨_, h⟩ | ⟨_, _, _, _, h⟩ <;> exact ⟨_, h⟩

end Sys2Proof.Machine
end

