-- ==== Sys2Proof/Laws/Memory.lean ====
section
/-! SUPPORT. The code memory: every operation keeps the canonical form, a read after the environment's write, and
what `ofBytes` holds. -/

namespace Sys2Proof.Machine

/-- A byte of a cell list, as `Memory.byteAt` reads it. -/
theorem Memory.byteAt_eq (m : Memory) (a : Nat) :
    m.byteAt a = (m.cells.lookup a).getD Memory.unlisted := rfl

/-- `Memory.wf` as two facts about the cells. -/
theorem Memory.wf_iff (m : Memory) :
    m.wf = true ↔ m.cells.Pairwise (fun x y => x.1 < y.1) ∧
      ∀ c ∈ m.cells, c.1 < m.len ∧ c.2 ≠ Memory.unlisted := by
  simp [Memory.wf]

/-- `setCell` adds no address but `a`. -/
theorem Memory.mem_setCell {l : List Host.Cell} {a : Nat} {b : Byte} {c : Host.Cell}
    (h : c ∈ Memory.setCell l a b) : c ∈ l ∨ (c = (a, b) ∧ b ≠ Memory.unlisted) := by
  induction l with
  | nil => simp only [Memory.setCell] at h; split at h <;> simp_all
  | cons x t ih =>
    obtain ⟨k, v⟩ := x
    simp only [Memory.setCell] at h
    split at h
    · split at h <;> simp_all; tauto
    · split at h
      · split at h <;> simp_all; tauto
      · rcases List.mem_cons.mp h with h | h
        · simp [h]
        · rcases ih h with h | h <;> simp [h]

/-- `setCell` keeps the addresses strictly rising. -/
theorem Memory.setCell_pairwise {l : List Host.Cell} (a : Nat) (b : Byte)
    (h : l.Pairwise fun x y => x.1 < y.1) : (Memory.setCell l a b).Pairwise fun x y => x.1 < y.1 := by
  induction l with
  | nil => simp only [Memory.setCell]; split <;> simp
  | cons x t ih =>
    obtain ⟨k, v⟩ := x
    obtain ⟨hk, ht⟩ := List.pairwise_cons.mp h
    simp only [Memory.setCell]
    split
    · rename_i hak
      split
      · exact h
      · refine List.pairwise_cons.mpr ⟨fun c hc => ?_, h⟩
        rcases List.mem_cons.mp hc with rfl | hc
        · exact hak
        · exact lt_trans hak (hk c hc)
    · split
      · rename_i hak hk'
        subst hk'
        split
        · exact ht
        · exact List.pairwise_cons.mpr ⟨hk, ht⟩
      · refine List.pairwise_cons.mpr ⟨fun c hc => ?_, ih ht⟩
        rcases Memory.mem_setCell hc with hc | ⟨rfl, _⟩
        · exact hk c hc
        · simp only; omega

/-- A cell of another address does not matter to a lookup. -/
theorem Memory.lookup_cons_ne {l : List Host.Cell} {a k : Nat} {v : Byte} (h : a ≠ k) :
    List.lookup a ((k, v) :: l) = List.lookup a l := by
  rw [List.lookup_cons, show (a == k) = false by simpa using h]

/-- An address below every listed one is not listed. -/
theorem Memory.lookup_eq_none_of_lt {l : List Host.Cell} {a : Nat} (h : ∀ c ∈ l, a < c.1) :
    l.lookup a = none := by
  induction l with
  | nil => rfl
  | cons x t ih =>
    obtain ⟨k, v⟩ := x
    have hk : a < k := h _ (List.mem_cons_self ..)
    rw [Memory.lookup_cons_ne (Nat.ne_of_lt hk)]
    exact ih fun c hc => h c (List.mem_cons_of_mem _ hc)

/-- Read after `setCell` in a strictly rising list: the written byte at `a`, every other address as before. -/
theorem Memory.lookup_setCell {l : List Host.Cell} (a : Nat) (b : Byte) (a' : Nat)
    (h : l.Pairwise fun x y => x.1 < y.1) :
    ((Memory.setCell l a b).lookup a').getD Memory.unlisted =
      if a' = a then b else (l.lookup a').getD Memory.unlisted := by
  induction l with
  | nil =>
    simp only [Memory.setCell]
    by_cases ha : a' = a
    · split <;> simp_all
    · split <;> simp [ha, Memory.lookup_cons_ne]
  | cons x t ih =>
    obtain ⟨k, v⟩ := x
    obtain ⟨hk, ht⟩ := List.pairwise_cons.mp h
    simp only [Memory.setCell]
    split
    · rename_i hak
      have hnone : ((k, v) :: t).lookup a = none :=
        Memory.lookup_eq_none_of_lt fun c hc => by
          rcases List.mem_cons.mp hc with rfl | hc
          · exact hak
          · exact lt_trans hak (hk c hc)
      split
      · rename_i hb
        split
        · rename_i ha; subst ha; simp [hnone, hb]
        · rfl
      · by_cases ha : a' = a <;> simp [Memory.lookup_cons_ne, ha]
    · split
      · rename_i hak hk'
        subst hk'
        have hnone : t.lookup a = none := Memory.lookup_eq_none_of_lt hk
        split
        · rename_i hb
          by_cases ha : a' = a
          · subst ha; simp [hnone, hb]
          · simp [Memory.lookup_cons_ne, ha]
        · by_cases ha : a' = a <;> simp [Memory.lookup_cons_ne, ha]
      · rename_i hak hk'
        by_cases hkk : a' = k
        · subst hkk
          simp [Ne.symm hk']
        · rw [Memory.lookup_cons_ne hkk, Memory.lookup_cons_ne hkk]
          exact ih ht

/-- The environment's write keeps the canonical form. -/
theorem Memory.write_wf {m : Memory} (a : Nat) (b : Byte) (h : m.wf = true) : (m.write a b).wf = true := by
  rw [Memory.wf_iff] at h ⊢
  refine ⟨Memory.setCell_pairwise a b h.1, fun c hc => ?_⟩
  rcases Memory.mem_setCell hc with hc | ⟨rfl, hb⟩
  · have := h.2 c hc
    exact ⟨lt_of_lt_of_le this.1 (le_max_left _ _), this.2⟩
  · exact ⟨lt_of_lt_of_le (Nat.lt_succ_self a) (le_max_right _ _), hb⟩

/-- Consecutive writes keep the canonical form. -/
theorem Memory.writeBytes_wf {m : Memory} (a : Nat) (bs : List Byte) (h : m.wf = true) :
    (m.writeBytes a bs).wf = true := by
  induction bs generalizing m a with
  | nil => exact h
  | cons b bs ih => exact ih (a + 1) (Memory.write_wf a b h)

/-- The memory of a bytecode is canonical. -/
theorem Memory.ofBytes_wf (bs : List Byte) : (Memory.ofBytes bs).wf = true :=
  Memory.writeBytes_wf 0 bs rfl

/-- Placing a table word keeps the canonical form. -/
theorem State.withFetchWord_mem_wf {s : State} (nbits w : Nat) (h : s.mem.wf = true) :
    (s.withFetchWord nbits w).mem.wf = true :=
  Memory.writeBytes_wf _ _ h

/-- Read after the environment's write. -/
theorem Memory.byteAt_write {m : Memory} (a : Nat) (b : Byte) (a' : Nat) (h : m.wf = true) :
    (m.write a b).byteAt a' = if a' = a then b else m.byteAt a' :=
  Memory.lookup_setCell a b a' ((Memory.wf_iff m).mp h).1

@[simp] theorem Memory.write_len (m : Memory) (a : Nat) (b : Byte) : (m.write a b).len = max m.len (a + 1) := rfl

/-- `LEN` after consecutive writes. -/
theorem Memory.writeBytes_len (m : Memory) (a : Nat) (bs : List Byte) :
    (m.writeBytes a bs).len = if bs = [] then m.len else max m.len (a + bs.length) := by
  induction bs generalizing m a with
  | nil => rfl
  | cons b bs ih =>
    simp only [Memory.writeBytes, ih, Memory.write_len, List.length_cons, reduceCtorEq, if_false]
    split
    · simp_all
    · omega

/-- Read after consecutive writes. -/
theorem Memory.byteAt_writeBytes {m : Memory} (a : Nat) (bs : List Byte) (a' : Nat) (h : m.wf = true) :
    (m.writeBytes a bs).byteAt a' =
      if h' : a ≤ a' ∧ a' - a < bs.length then bs[a' - a] else m.byteAt a' := by
  induction bs generalizing m a with
  | nil => simp [Memory.writeBytes]
  | cons b bs ih =>
    simp only [Memory.writeBytes, ih (a + 1) (Memory.write_wf a b h), Memory.byteAt_write _ _ _ h,
      List.length_cons]
    by_cases h1 : a' = a
    · subst h1; simp
    · by_cases h2 : a + 1 ≤ a' ∧ a' - (a + 1) < bs.length
      · have h3 : a ≤ a' ∧ a' - a < bs.length + 1 := by omega
        have h4 : a' - a = (a' - (a + 1)) + 1 := by omega
        rw [dif_pos h2, dif_pos h3]
        simp only [h4, List.getElem_cons_succ]
      · have h3 : ¬ (a ≤ a' ∧ a' - a < bs.length + 1) := by omega
        simp only [dif_neg h2, dif_neg h3, if_neg h1]

/-- `LEN` is the length of the bytecode. -/
@[simp] theorem Memory.ofBytes_len (bs : List Byte) : (Memory.ofBytes bs).len = bs.length := by
  cases bs with
  | nil => rfl
  | cons b bs => simp [Memory.ofBytes, Memory.writeBytes_len]

@[simp] theorem Memory.bytes_length (m : Memory) (a n : Nat) : (m.bytes a n).length = n := by
  simp [Memory.bytes]

/-- The bytes from `a` on, the first one apart. -/
theorem Memory.bytes_succ (m : Memory) (a n : Nat) : m.bytes a (n + 1) = m.byteAt a :: m.bytes (a + 1) n := by
  simp [Memory.bytes, List.range_succ_eq_map, List.map_map, Function.comp_def, Nat.add_comm, Nat.add_left_comm]

/-- A prefix of the bytes from `a` on. -/
theorem Memory.bytes_take (m : Memory) (a : Nat) {k n : Nat} (h : k ≤ n) : (m.bytes a n).take k = m.bytes a k := by
  simp [Memory.bytes, ← List.map_take, List.take_range, Nat.min_eq_left h]

/-- The window at a `pc` inside the code starts with the fetched byte. -/
theorem Memory.window_eq_cons (m : Memory) {pc : Nat} (h : pc < m.len) :
    m.window pc = m.byteAt pc :: m.bytes (pc + 1) (min (Config.maxInstrBytes - 1) (m.len - (pc + 1))) := by
  have : min Config.maxInstrBytes (m.len - pc)
      = min (Config.maxInstrBytes - 1) (m.len - (pc + 1)) + 1 := by
    simp only [Config.maxInstrBytes]; omega
  rw [Memory.window, this, Memory.bytes_succ]

/-- The read of one byte inside the code. -/
theorem Memory.read?_eq_some {m : Memory} {a : Nat} {b : Byte} :
    m.read? a = some b ↔ a < m.len ∧ m.byteAt a = b := by
  unfold Memory.read?; split <;> simp_all

end Sys2Proof.Machine
end

