-- ==== Sys2Proof/Laws/Step.lean ====
section
/-! SUPPORT. What one step can do, said once: under any parameters, and for the machine with the default ones. -/

namespace Sys2Proof.Machine

/-! ### The parameters -/

@[simp] theorem defaultParams_opmap : defaultParams.opmap = opmap := rfl
@[simp] theorem defaultParams_truncPush : defaultParams.truncPush = .opcodeOnly := rfl
@[simp] theorem defaultParams_sizes : defaultParams.sizes = none := rfl

/-- Unbounded sizes withinSizes every outcome. -/
@[simp] theorem withinSizes_none (o : Host.Outcome State Fault Refusal) : withinSizes none o = o := by
  cases o <;> rfl

/-- What sizes withinSizes is a next state of the instruction, and it fits them unless it is aborted. -/
theorem withinSizes_eq_next {z : Option Config.Sizes} {o : Host.Outcome State Fault Refusal} {t : State}
    (h : withinSizes z o = .next t) : o = .next t ∧ ∀ y, z = some y → t.run ≠ .aborted → t.fits y = true := by
  rcases z with _ | z
  · exact ⟨by simpa using h, by simp⟩
  · cases o with
    | next u =>
      by_cases hc : u.run = .aborted ∨ u.fits z = true
      · obtain rfl : u = t := by simpa [withinSizes, hc] using h
        exact ⟨rfl, fun y hy hn => by obtain rfl := Option.some.inj hy; exact hc.resolve_left hn⟩
      · simp [withinSizes, hc] at h
    | fault f => simp [withinSizes] at h
    | refused r => simp [withinSizes] at h

/-- A next state that fits the sizes goes through. -/
theorem withinSizes_of_fits {z : Option Config.Sizes} {t : State}
    (h : ∀ y, z = some y → t.run ≠ .aborted → t.fits y = true) : withinSizes z (.next t) = .next t := by
  rcases z with _ | z
  · rfl
  · have := h z rfl
    by_cases hr : t.run = .aborted <;> simp_all [withinSizes]

/-- Under the default of `TRUNC_PUSH` an instruction is performed by its meaning. -/
@[simp] theorem execWith_opcodeOnly (i : Instr) (s : State) : execWith .opcodeOnly i s = exec i s := by
  cases i with
  | push1 imm | push2 imm | push4 imm | push6 imm | push10 imm | push11 imm | push32 imm => cases imm <;> rfl
  | _ => rfl

/-- Under any value of `TRUNC_PUSH` an instruction is performed by its meaning, but for a truncated PUSHn that stays
put, which changes nothing. -/
theorem execWith_cases (c : Config.TruncPush) (i : Instr) (s : State) :
    execWith c i s = exec i s ∨ (c = .staysPut ∧ isTruncatedPush i = true ∧ execWith c i s = .next s) := by
  cases c with
  | opcodeOnly => simp
  | staysPut =>
    by_cases h : isTruncatedPush i = true
    · exact .inr ⟨rfl, h, by simp [execWith, h, truncatedPush]⟩
    · exact .inl (by simp [execWith, h])

/-- `execWith` always answers a next state. -/
theorem execWith_next (c : Config.TruncPush) (i : Instr) (s : State) : ∃ t, execWith c i s = .next t := by
  rcases execWith_cases c i s with e | ⟨-, -, e⟩
  · rw [e]; exact exec_next i s
  · exact ⟨s, e⟩

/-- Under no parameters does an instruction write the code memory. -/
theorem execWith_mem {c : Config.TruncPush} {i : Instr} {s t : State} (h : execWith c i s = .next t) :
    t.mem = s.mem := by
  rcases execWith_cases c i s with e | ⟨-, -, e⟩ <;> rw [e] at h
  · exact exec_mem h
  · obtain rfl := Host.Outcome.next.inj h
    rfl

/-! ### The step under any parameters -/

section Params
variable {p : Config.Params}

/-- The step of a Running state at the end of the code. -/
theorem stepWith_endOfCode {s : State} (hr : s.run = .running) (h : s.pc = s.mem.len) :
    stepWith p s = .next s.halt := by
  simp [stepWith, hr, h]

/-- The step of a Running state inside the code: by the fetched byte, an abort or the decoded instruction. -/
theorem stepWith_fetch {s : State} (hr : s.run = .running) (h : s.pc < s.mem.len) :
    stepWith p s = match decodeByteWith p.opmap (s.mem.byteAt s.pc) with
      | none => .next (s.raiseUnrecognized (s.mem.byteAt s.pc))
      | some op => withinSizes p.sizes (execWith p.truncPush (takeOperand op
          (s.mem.bytes (s.pc + 1) (min (Config.maxInstrBytes - 1) (s.mem.len - (s.pc + 1))))).1 s) := by
  have h1 : s.pc ≠ s.mem.len := Nat.ne_of_lt h
  have h2 : ¬ s.mem.len < s.pc := Nat.not_lt.mpr h.le
  simp only [stepWith, hr, h1, h2, if_false, s.mem.window_eq_cons h, decodeWith_cons]
  cases decodeByteWith p.opmap (s.mem.byteAt s.pc) <;> rfl

/-- The one inversion lemma of `stepWith`: if it answers `next t` from `s`, then `s` was Running and it reached the end
of the code, met an unrecognized byte, or performed the decoded instruction, whose bytes lie inside the code, with a
result that fits the sizes. -/
theorem stepWith_cases {s t : State} (h : stepWith p s = .next t) :
    s.run = .running ∧
    ((s.pc = s.mem.len ∧ t = s.halt) ∨
     (s.pc < s.mem.len ∧ decodeByteWith p.opmap (s.mem.byteAt s.pc) = none ∧
       t = s.raiseUnrecognized (s.mem.byteAt s.pc)) ∨
     (s.pc < s.mem.len ∧ ∃ i, decodeByteWith p.opmap (s.mem.byteAt s.pc) = some i.opcode ∧
       s.pc + i.size ≤ s.mem.len ∧ execWith p.truncPush i s = .next t ∧
       ∀ z, p.sizes = some z → t.run ≠ .aborted → t.fits z = true)) := by
  have hr : s.run = .running := by
    cases hr : s.run <;> simp_all [stepWith]
  refine ⟨hr, ?_⟩
  rcases Nat.lt_trichotomy s.pc s.mem.len with hlt | heq | hgt
  · rw [stepWith_fetch hr hlt] at h
    cases hd : decodeByteWith p.opmap (s.mem.byteAt s.pc) with
    | none => rw [hd] at h; exact .inr (.inl ⟨hlt, rfl, by simpa using h.symm⟩)
    | some op =>
      rw [hd] at h
      obtain ⟨he, hz⟩ := withinSizes_eq_next h
      refine .inr (.inr ⟨hlt, _, ?_, ?_, he, hz⟩)
      · rcases takeOperand_cases op _ with ⟨-, e⟩ | ⟨-, -, e⟩ | ⟨-, -, e⟩ <;> rw [e] <;> simp
      · have hle := op.immBytes_le
        rcases takeOperand_cases op
          (s.mem.bytes (s.pc + 1) (min (Config.maxInstrBytes - 1) (s.mem.len - (s.pc + 1)))) with
          ⟨-, e⟩ | ⟨hn, hl, e⟩ | ⟨hn, -, e⟩ <;> rw [e]
        · simp [Instr.size, OpCode.instr_imm]; omega
        · simp only [Memory.bytes_length] at hl
          simp [Instr.size, OpCode.instr_imm, hn]; omega
        · simp [Instr.size, OpCode.instr_imm]; omega
  · rw [stepWith_endOfCode hr heq] at h
    exact .inl ⟨heq, by simpa using h.symm⟩
  · have h1 : s.pc ≠ s.mem.len := Nat.ne_of_gt hgt
    simp [stepWith, hr, h1, hgt] at h

/-- No step writes the code memory. -/
theorem stepWith_mem {s t : State} (h : stepWith p s = .next t) : t.mem = s.mem := by
  obtain ⟨-, ⟨-, rfl⟩ | ⟨-, -, rfl⟩ | ⟨-, i, -, -, he, -⟩⟩ := stepWith_cases h
  · rfl
  · rfl
  · exact execWith_mem he

end Params

/-! ### The step of the machine -/

/-- The step of a Running state at the end of the code. -/
theorem step_endOfCode {s : State} (hr : s.run = .running) (h : s.pc = s.mem.len) : step s = .next s.halt :=
  stepWith_endOfCode hr h

/-- The step of a Running state inside the code. -/
theorem step_fetch {s : State} (hr : s.run = .running) (h : s.pc < s.mem.len) :
    step s = match decodeByte (s.mem.byteAt s.pc) with
      | none => .next (s.raiseUnrecognized (s.mem.byteAt s.pc))
      | some op => exec (takeOperand op
          (s.mem.bytes (s.pc + 1) (min (Config.maxInstrBytes - 1) (s.mem.len - (s.pc + 1))))).1 s := by
  simpa [step, decodeByte] using stepWith_fetch (p := defaultParams) hr h

/-- The inversion lemma of `step`. -/
theorem step_cases {s t : State} (h : step s = .next t) :
    s.run = .running ∧
    ((s.pc = s.mem.len ∧ t = s.halt) ∨
     (s.pc < s.mem.len ∧ decodeByte (s.mem.byteAt s.pc) = none ∧ t = s.raiseUnrecognized (s.mem.byteAt s.pc)) ∨
     (s.pc < s.mem.len ∧ ∃ i, decodeByte (s.mem.byteAt s.pc) = some i.opcode ∧ s.pc + i.size ≤ s.mem.len ∧
       exec i s = .next t)) := by
  simpa [decodeByte] using stepWith_cases (p := defaultParams) h

end Sys2Proof.Machine
end

