-- ==== Sys2Proof/Laws/Execute.lean ====
section
/-! SUPPORT. The loop of an execution: one step, no step, composition, and the induction over its steps, packaged once. -/

namespace Sys2Proof.Machine

section Params
variable {p : Config.Params}

@[simp] theorem loopWith_zero (s : State) : loopWith p 0 s = s := rfl

/-- In a terminal state the loop does nothing. -/
theorem loopWith_of_not_running {s : State} (h : s.run ≠ .running) (k : Nat) : loopWith p k s = s := by
  cases k with
  | zero => rfl
  | succ k => unfold loopWith; cases hr : s.run <;> simp_all

/-- One iteration of the loop is one step. -/
theorem loopWith_succ_of_step {s t : State} (h : stepWith p s = .next t) (k : Nat) :
    loopWith p (k + 1) s = loopWith p k t := by
  conv_lhs => unfold loopWith
  simp [(stepWith_cases h).1, h]

/-- Where no step is answered the loop does nothing. -/
theorem loopWith_of_no_step {s : State} (h : ∀ t, stepWith p s ≠ .next t) (k : Nat) : loopWith p k s = s := by
  cases k with
  | zero => rfl
  | succ k =>
    unfold loopWith
    cases hr : s.run <;> simp only
    cases hs : stepWith p s with
    | next t => exact absurd hs (h t)
    | fault _ => rfl
    | refused _ => rfl

/-- Running `a` and then `b` iterations. -/
theorem loopWith_add (a b : Nat) (s : State) : loopWith p (a + b) s = loopWith p b (loopWith p a s) := by
  induction a generalizing s with
  | zero => simp
  | succ a ih =>
    by_cases h : ∃ t, stepWith p s = .next t
    · obtain ⟨t, ht⟩ := h
      rw [Nat.succ_add, loopWith_succ_of_step ht, loopWith_succ_of_step ht, ih]
    · have h' : ∀ t, stepWith p s ≠ .next t := fun t ht => h ⟨t, ht⟩
      rw [loopWith_of_no_step h', loopWith_of_no_step h', loopWith_of_no_step h']

/-- What every step keeps, the loop keeps. -/
theorem loopWith_induction {P : State → Prop} (hstep : ∀ s t, P s → stepWith p s = .next t → P t) (k : Nat) {s : State}
    (h : P s) : P (loopWith p k s) := by
  induction k generalizing s with
  | zero => exact h
  | succ k ih =>
    by_cases hs : ∃ t, stepWith p s = .next t
    · obtain ⟨t, ht⟩ := hs
      rw [loopWith_succ_of_step ht]
      exact ih (hstep s t h ht)
    · rw [loopWith_of_no_step fun t ht => hs ⟨t, ht⟩]
      exact h

/-- Without sizes every bytecode is accepted. -/
theorem accepts_of_no_sizes (h : p.sizes = none) (code : List Byte) : accepts p code = true := by
  simp [accepts, h]

end Params

@[simp] theorem loop_zero (s : State) : loop 0 s = s := rfl

/-- In a terminal state the loop does nothing. -/
theorem loop_of_not_running {s : State} (h : s.run ≠ .running) (k : Nat) : loop k s = s :=
  loopWith_of_not_running h k

/-- One iteration of the loop is one step. -/
theorem loop_succ_of_step {s t : State} (h : step s = .next t) (k : Nat) : loop (k + 1) s = loop k t :=
  loopWith_succ_of_step h k

/-- Where no step is answered the loop does nothing. -/
theorem loop_of_no_step {s : State} (h : ∀ t, step s ≠ .next t) (k : Nat) : loop k s = s :=
  loopWith_of_no_step h k

/-- Running `a` and then `b` iterations. -/
theorem loop_add (a b : Nat) (s : State) : loop (a + b) s = loop b (loop a s) :=
  loopWith_add a b s

/-- What every step keeps, the loop keeps. -/
theorem loop_induction {P : State → Prop} (hstep : ∀ s t, P s → step s = .next t → P t) (k : Nat) {s : State}
    (h : P s) : P (loop k s) :=
  loopWith_induction hstep k h

/-- `execute` is the result of the loop. -/
theorem execute_eq (code : List Byte) : execute code = (loop (code.length + 1) (State.resetWith code)).result := rfl

/-- Terminal is not Running. -/
theorem State.terminal_iff (s : State) : s.Terminal ↔ s.run ≠ .running := by
  unfold State.Terminal; cases s.run <;> simp

end Sys2Proof.Machine
end

