-- ==== Sys2Proof/Laws/PerInstr.lean ====
section
/-! SUPPORT. Family OpcodeHeadsEncoding, one lemma per constructor: the first byte of an instruction's encoding alone
selects it (30_encoding.md R60, R64), and the encoding has the instruction's length. -/

namespace Sys2Proof.Laws.OpcodeHeadsEncoding

/-- The encoding begins with a byte that decodes to the instruction's OpCode and is `size` bytes long. -/
def Statement (i : Instr) : Prop :=
  ∃ b rest, encode i = b :: rest ∧ decodeByte b = some i.opcode ∧ (encode i).length = i.size

theorem stop : Statement .stop := ⟨_, _, rfl, rfl, rfl⟩
theorem add : Statement .add := ⟨_, _, rfl, rfl, rfl⟩
theorem mul : Statement .mul := ⟨_, _, rfl, rfl, rfl⟩
theorem sub : Statement .sub := ⟨_, _, rfl, rfl, rfl⟩
theorem div : Statement .div := ⟨_, _, rfl, rfl, rfl⟩
theorem sdiv : Statement .sdiv := ⟨_, _, rfl, rfl, rfl⟩
theorem mod : Statement .mod := ⟨_, _, rfl, rfl, rfl⟩
theorem smod : Statement .smod := ⟨_, _, rfl, rfl, rfl⟩
theorem addmod : Statement .addmod := ⟨_, _, rfl, rfl, rfl⟩
theorem mulmod : Statement .mulmod := ⟨_, _, rfl, rfl, rfl⟩
theorem exp : Statement .exp := ⟨_, _, rfl, rfl, rfl⟩
theorem signextend : Statement .signextend := ⟨_, _, rfl, rfl, rfl⟩
theorem lt : Statement .lt := ⟨_, _, rfl, rfl, rfl⟩
theorem gt : Statement .gt := ⟨_, _, rfl, rfl, rfl⟩
theorem slt : Statement .slt := ⟨_, _, rfl, rfl, rfl⟩
theorem sgt : Statement .sgt := ⟨_, _, rfl, rfl, rfl⟩
theorem pop : Statement .pop := ⟨_, _, rfl, rfl, rfl⟩
theorem push0 : Statement .push0 := ⟨_, _, rfl, rfl, rfl⟩
theorem push1 (imm : Option Word) : Statement (.push1 imm) := by cases imm <;> exact ⟨_, _, rfl, rfl, rfl⟩
theorem push2 (imm : Option Word) : Statement (.push2 imm) := by cases imm <;> exact ⟨_, _, rfl, rfl, rfl⟩
theorem push4 (imm : Option Word) : Statement (.push4 imm) := by cases imm <;> exact ⟨_, _, rfl, rfl, rfl⟩
theorem push6 (imm : Option Word) : Statement (.push6 imm) := by cases imm <;> exact ⟨_, _, rfl, rfl, rfl⟩
theorem push10 (imm : Option Word) : Statement (.push10 imm) := by cases imm <;> exact ⟨_, _, rfl, rfl, rfl⟩
theorem push11 (imm : Option Word) : Statement (.push11 imm) := by cases imm <;> exact ⟨_, _, rfl, rfl, rfl⟩
theorem push32 (imm : Option Word) : Statement (.push32 imm) := by cases imm <;> exact ⟨_, _, rfl, rfl, rfl⟩

end Sys2Proof.Laws.OpcodeHeadsEncoding
end

