-- ==== Sys2Proof/Tests/Slice0.lean ====
section
/-! SUPPORT. The model's own tests. The expected results are the vectors of 95_test_vectors.md (named V-… below) and
the encodings of 30_encoding.md; the witnesses show that the hypotheses of each statement can be met together. -/

namespace Sys2Proof.Tests

open Sys2Proof.Machine

/-- A Running state at `pc = 0` with a stack (oldest first) and a bytecode. -/
def st (stack : List Word) (code : List Byte) : State :=
  { State.resetWith code with stack := stack }

/-- The stack of a next state. -/
def stackOf : Host.Outcome State Fault Refusal → Option (List Word)
  | .next s => some s.stack
  | _ => none

/-- The `pc` of a next state. -/
def pcOf : Host.Outcome State Fault Refusal → Option Nat
  | .next s => some s.pc
  | _ => none

/-- The run state and cause of a next state. -/
def runOf : Host.Outcome State Fault Refusal → Option (RunState × Cause)
  | .next s => some (s.run, s.cause)
  | _ => none

/-- The fault that stopped a step. -/
def faultOf : Host.Outcome State Fault Refusal → Option Fault
  | .fault r => some r
  | _ => none

/-- Zero bytes. -/
def zeros (n : Nat) : List Byte := List.replicate n 0

/-! ### WellFormed: one ill-formed term for each check -/

theorem test_illFormed_push1 : WellFormed (.push1 (some 0x100)) = false := by decide
theorem test_illFormed_push2 : WellFormed (.push2 (some 0x10000)) = false := by decide
theorem test_illFormed_push4 : WellFormed (.push4 (some 0x100000000)) = false := by decide
theorem test_illFormed_push6 : WellFormed (.push6 (some 0x1000000000000)) = false := by decide
theorem test_illFormed_push10 : WellFormed (.push10 (some (BitVec.ofNat 256 (2 ^ 80)))) = false := by decide
theorem test_illFormed_push11 : WellFormed (.push11 (some (BitVec.ofNat 256 (2 ^ 88)))) = false := by decide
/-- Every Word is an immediate of PUSH32 (R92), so its check refuses nothing. -/
theorem test_wellFormed_push32 : WellFormed (.push32 (some maxW)) = true := by decide

/-! ### Decode: every constructor by a word written out from 30_encoding.md R60, R63 -/

theorem test_decode_stop : decode [0x00, 0xFF] = .ok (.stop, [0xFF]) := by decide
theorem test_decode_add : decode [0x01] = .ok (.add, []) := by decide
theorem test_decode_mul : decode [0x02] = .ok (.mul, []) := by decide
theorem test_decode_sub : decode [0x03] = .ok (.sub, []) := by decide
theorem test_decode_div : decode [0x04] = .ok (.div, []) := by decide
theorem test_decode_sdiv : decode [0x05] = .ok (.sdiv, []) := by decide
theorem test_decode_mod : decode [0x06] = .ok (.mod, []) := by decide
theorem test_decode_smod : decode [0x07] = .ok (.smod, []) := by decide
theorem test_decode_addmod : decode [0x08] = .ok (.addmod, []) := by decide
theorem test_decode_mulmod : decode [0x09] = .ok (.mulmod, []) := by decide
theorem test_decode_exp : decode [0x0A] = .ok (.exp, []) := by decide
theorem test_decode_signextend : decode [0x0B] = .ok (.signextend, []) := by decide
theorem test_decode_lt : decode [0x10] = .ok (.lt, []) := by decide
theorem test_decode_gt : decode [0x11] = .ok (.gt, []) := by decide
theorem test_decode_slt : decode [0x12] = .ok (.slt, []) := by decide
theorem test_decode_sgt : decode [0x13] = .ok (.sgt, []) := by decide
theorem test_decode_pop : decode [0x50] = .ok (.pop, []) := by decide
theorem test_decode_push0 : decode [0x5F, 0x01] = .ok (.push0, [0x01]) := by decide
theorem test_decode_push1 : decode [0x60, 0x05, 0x60] = .ok (.push1 (some 0x05), [0x60]) := by decide
theorem test_decode_push2 : decode [0x61, 0x01, 0x02] = .ok (.push2 (some 0x0102), []) := by decide
theorem test_decode_push4 : decode [0x63, 0xDE, 0xAD, 0xBE, 0xEF] = .ok (.push4 (some 0xDEADBEEF), []) := by decide
theorem test_decode_push6 :
    decode [0x65, 0x01, 0x02, 0x03, 0x04, 0x05, 0x06] = .ok (.push6 (some 0x010203040506), []) := by decide
theorem test_decode_push10 :
    decode [0x69, 0x01, 0, 0, 0, 0, 0, 0, 0, 0, 0x2A] = .ok (.push10 (some 0x0100000000000000002A), []) := by decide
theorem test_decode_push11 :
    decode [0x6A, 0x01, 0, 0, 0, 0, 0, 0, 0, 0, 0, 0x02] = .ok (.push11 (some 0x0100000000000000000002), []) := by
  decide
theorem test_decode_push32 :
    decode (0x7F :: 0x80 :: zeros 30 ++ [0x07]) = .ok (.push32 (some (minS + 7)), []) := by decide
theorem test_decode_truncated_push2 : decode [0x61, 0x05] = .ok (.push2 none, [0x05]) := by decide
theorem test_decode_push3_unrecognized : decode [0x62, 0x00, 0x00, 0x00] = .error (.unrecognized 0x62) := by decide
theorem test_encode_push2 : encode (.push2 (some 0x0102)) = [0x61, 0x01, 0x02] := by decide
theorem test_decodeTableWord_push2 : decodeTableWord 24 0x020161 = some (.push2 (some 0x0102)) := by decide

/-! ### The step: fetch, end of code, faults, terminal states -/

/-- V-LP1. -/
theorem test_step_endOfCode : runOf (step (st [] [])) = some (.halted, .none) := by decide
/-- V-PU15. -/
theorem test_step_push3_unrecognized : runOf (step (st [7] [0x62])) = some (.aborted, .unrecognizedOpcode) := by decide
theorem test_step_halted : faultOf (step { st [] [0x00] with run := .halted }) = some .noStepHalted := by decide
theorem test_step_aborted : faultOf (step { st [] [0x00] with run := .aborted }) = some .noStepAborted := by decide
theorem test_step_pcPastEnd : faultOf (step { st [] [0x00] with pc := 2 }) = some .pcPastEnd := by decide
/-- A table word of bytes `7F 80 00 .. 00 07`. -/
theorem test_step_withFetchWord_push32 :
    stackOf (step (State.reset.withFetchWord 264 (0x7F + 2 ^ 8 * 0x80 + 2 ^ 256 * 0x07))) = some [minS + 7] := by decide
theorem test_step_withFetchWord_sub_underflow :
    runOf (step (State.reset.withFetchWord 8 0x03)) = some (.aborted, .stackUnderflow) := by decide

/-- R63: another map is another argument; here 0x01 and 0x03 change places. -/
theorem test_stepWith_other_opmap :
    stackOf (stepWith { defaultParams with opmap := [(0x03, .add), (0x01, .sub)] } (st [5, 3] [0x01])) =
      some [maxW - 1] := by decide
/-- R85: "stays put". -/
theorem test_stepWith_staysPut : pcOf (stepWith { defaultParams with truncPush := .staysPut } (st [] [0x60])) = some 0 := by
  decide
/-- A stack of one slot, which does not meet R7 for two bytes of code, cannot hold a second Word. -/
theorem test_stepWith_exceedsSizes :
    faultOf (stepWith { defaultParams with sizes := some ⟨2, 2, 1⟩ } (st [7] [0x5F])) = some .exceedsSizes := by decide
/-- R7: `CODE_MAX`. -/
theorem test_executeWith_codeMax :
    executeWith { defaultParams with sizes := some ⟨2, 2, 2⟩ } [0x5F, 0x5F] = some (.success [0, 0]) ∧
    executeWith { defaultParams with sizes := some ⟨1, 1, 1⟩ } [0x5F, 0x5F] = none := by decide

/-! ### One or two vectors per instruction -/

/-- V-LP2, D12. -/
theorem test_stop : runOf (step (st [] [0x00])) = some (.halted, .none) ∧ pcOf (step (st [] [0x00])) = some 0 := by decide
/-- V-PU13. -/
theorem test_pop : stackOf (exec .pop (st [7, 9] [])) = some [7] := by decide
/-- V-PU14. -/
theorem test_pop_underflow : runOf (exec .pop (st [] [])) = some (.aborted, .stackUnderflow) := by decide
/-- V-PU1. -/
theorem test_push0 : stackOf (step (st [] [0x5F])) = some [0] := by decide
/-- V-PU2: the operand ends the code exactly; zero-extended. -/
theorem test_push1 : stackOf (step (st [] [0x60, 0xFF])) = some [0xFF] := by decide
/-- V-PU10. -/
theorem test_push1_truncated : stackOf (step (st [7] [0x60])) = some [7] ∧ pcOf (step (st [7] [0x60])) = some 1 := by
  decide
/-- V-PU3: big-endian. -/
theorem test_push2 : stackOf (step (st [] [0x61, 0x01, 0x00])) = some [0x0100] := by decide
/-- V-PU11. -/
theorem test_push2_truncated : stackOf (step (st [] [0x61, 0x05])) = some [] ∧ pcOf (step (st [] [0x61, 0x05])) = some 1 := by
  decide
/-- V-PU4. -/
theorem test_push4 : stackOf (step (st [] [0x63, 0xDE, 0xAD, 0xBE, 0xEF])) = some [0xDEADBEEF] := by decide
/-- V-PU5. -/
theorem test_push6 : pcOf (step (st [] [0x65, 1, 2, 3, 4, 5, 6])) = some 7 := by decide
/-- V-PU6: leading zero bytes. -/
theorem test_push10 : stackOf (step (st [] (0x69 :: zeros 9 ++ [0x2A]))) = some [0x2A] := by decide
/-- V-PU7. -/
theorem test_push11 : stackOf (step (st [] (0x6A :: 0x01 :: zeros 10))) = some [BitVec.ofNat 256 (2 ^ 80)] := by decide
/-- V-PU9. -/
theorem test_push32 : stackOf (step (st [] (0x7F :: 0x80 :: zeros 31))) = some [minS] := by decide
/-- V-PU12: one byte short. -/
theorem test_push32_truncated : stackOf (step (st [] (0x7F :: zeros 31))) = some [] := by decide

/-- V-AD2. -/
theorem test_add_wraps : stackOf (exec .add (st [1, maxW] [])) = some [0] := by decide
/-- V-AD3. -/
theorem test_add_max : stackOf (exec .add (st [7, maxW, maxW] [])) = some [7, maxW - 1] := by decide
/-- V-SB2: first-popped minus second-popped. -/
theorem test_sub_order : stackOf (exec .sub (st [5, 3] [])) = some [maxW - 1] := by decide
/-- V-SB4. -/
theorem test_sub_mins : stackOf (exec .sub (st [1, minS] [])) =
    some [0x7FFFFFFFFFFFFFFFFFFFFFFFFFFFFFFFFFFFFFFFFFFFFFFFFFFFFFFFFFFFFFFF] := by decide
/-- V-ML2. -/
theorem test_mul_max : stackOf (exec .mul (st [maxW, maxW] [])) = some [1] := by decide
/-- V-FW9. -/
theorem test_mul_full : stackOf (exec .mul (st
    [0xF464E4FF22967372DF2B40F8A5A566AE8E69EBE289571EFE2CB83D335DE989D7,
     0x348331533EB6F25679D93AC889F69024A27748A85C261A69305480324005B734] [])) =
    some [0x37806A7E02558A4199BA39FC81CF62E42351C979DABE892479BBCA94762BB0AC] := by decide
/-- V-DV1: a zero divisor. -/
theorem test_div_zero : stackOf (exec .div (st [0, 5] [])) = some [0] := by decide
/-- V-DV8: unsigned. -/
theorem test_div_unsigned : stackOf (exec .div (st [3, maxW - 9] [])) =
    some [0x5555555555555555555555555555555555555555555555555555555555555552] := by decide
/-- V-MD1. -/
theorem test_mod_zero : stackOf (exec .mod (st [0, 5] [])) = some [0] := by decide
/-- V-MD4. -/
theorem test_mod_mins : stackOf (exec .mod (st [minS, maxW] [])) = some [minS - 1] := by decide
/-- V-AM2: exact sum. -/
theorem test_addmod_exact : stackOf (exec .addmod (st [10, maxW, maxW] [])) = some [0] := by decide
/-- V-AM8: nothing is popped, the fault is StackUnderflow. -/
theorem test_addmod_two_words : runOf (exec .addmod (st [2, 1] [])) = some (.aborted, .stackUnderflow) := by decide
/-- V-MM2: exact product. -/
theorem test_mulmod_exact : stackOf (exec .mulmod (st [12, maxW, maxW] [])) = some [9] := by decide
/-- V-FW49: three different operands. -/
theorem test_mulmod_full : stackOf (exec .mulmod (st
    [0x348331533EB6F25679D93AC889F69024A27748A85C261A69305480324005B734,
     0x7DA0FF754211473E2A74C9B7ACD7708E907B52FFE036D8427A4A4FBAC3B8311F,
     0xF464E4FF22967372DF2B40F8A5A566AE8E69EBE289571EFE2CB83D335DE989D7] [])) =
    some [0x261FAC45C6A51723F0049FE44EF4C2E7B11F218445517919B45AD51EC67CFB91] := by decide
/-- V-EX1: the top is the base. -/
theorem test_exp_order : stackOf (exec .exp (st [5, 3] [])) = some [243] := by decide
/-- V-EX10: 256 significant exponent bits. -/
theorem test_exp_full : stackOf (exec .exp (st [maxW, 3] [])) =
    some [0xAAAAAAAAAAAAAAAAAAAAAAAAAAAAAAAAAAAAAAAAAAAAAAAAAAAAAAAAAAAAAAAB] := by decide +kernel
/-- V-SD8: toward zero. -/
theorem test_sdiv_truncates : stackOf (exec .sdiv (st [2, maxW] [])) = some [0] := by decide
/-- V-SD6: the overflow wraps. -/
theorem test_sdiv_overflow : stackOf (exec .sdiv (st [maxW, minS] [])) = some [minS] := by decide
/-- V-SM4: the sign of the divisor has no effect. -/
theorem test_smod_divisor_sign : stackOf (exec .smod (st [maxW - 2, 10] [])) = some [1] := by decide
/-- V-SM9. -/
theorem test_smod_mins : stackOf (exec .smod (st [3, minS] [])) = some [maxW - 1] := by decide
/-- V-SE9d: a clear sign byte at index 30 clears the byte above. -/
theorem test_signextend_clears : stackOf (exec .signextend (st
    [0xAB7F000000000000000000000000000000000000000000000000000000000001, 30] [])) =
    some [0x007F000000000000000000000000000000000000000000000000000000000001] := by decide
/-- V-SE12: the whole Word `k` is compared. -/
theorem test_signextend_wide_k : stackOf (exec .signextend (st [0x80, 256] [])) = some [0x80] := by decide
/-- V-CM11. -/
theorem test_lt_unsigned : stackOf (exec .lt (st [minS - 1, minS] [])) = some [0] := by decide
/-- V-CM11. -/
theorem test_gt_unsigned : stackOf (exec .gt (st [minS - 1, minS] [])) = some [1] := by decide
/-- V-CM11. -/
theorem test_slt_signs_differ : stackOf (exec .slt (st [minS - 1, minS] [])) = some [1] := by decide
/-- V-CM8: both negative. -/
theorem test_slt_both_negative : stackOf (exec .slt (st [maxW, maxW - 1] [])) = some [1] := by decide
/-- V-CM11. -/
theorem test_sgt_signs_differ : stackOf (exec .sgt (st [minS - 1, minS] [])) = some [0] := by decide
/-- V-CM9: both negative. -/
theorem test_sgt_both_negative : stackOf (exec .sgt (st [maxW - 1, maxW] [])) = some [1] := by decide

/-! ### Witnesses: the hypotheses of each statement, met together -/

theorem opmap_proper : opmap.Proper := ⟨by decide, by decide, fun op => by cases op <;> decide⟩

/-- `DecodeAfterEncode`: the largest immediate, and a truncated form with the longest `rest` it can have. -/
theorem witness_DecodeAfterEncode :
    opmap.Proper ∧ WellFormed (.push2 (some 0xFFFF)) = true ∧ WellFormed (.push2 none) = true ∧
      [(0xFF : Byte)].length < (Instr.push2 none).opcode.immBytes :=
  ⟨opmap_proper, by decide, by decide, by decide⟩
theorem witness_EncodeAfterDecode :
    opmap.Proper ∧ decodeWith opmap [0x61, 0xFF, 0xFF, 0x00] = .ok (.push2 (some 0xFFFF), [0x00]) :=
  ⟨opmap_proper, by decide⟩
theorem witness_StepRunsDecodedInstruction :
    (st [5] [0x60, 0x03, 0x01]).run = .running ∧ (st [5] [0x60, 0x03, 0x01]).pc < (st [5] [0x60, 0x03, 0x01]).mem.len ∧
      decode ((st [5] [0x60, 0x03, 0x01]).mem.bytes 0 3) = .ok (.push1 (some 3), [0x01]) := by decide
/-- The last conjunct: an execution that ends at `pc = LEN` and is not aborted. -/
theorem witness_StepHaltsAtEndOfCode :
    (st [5] []).run = .running ∧ (st [5] []).pc = (st [5] []).mem.len ∧
      (loop 2 (State.resetWith [0x5F])).run = .halted ∧ (loop 2 (State.resetWith [0x5F])).pc = 1 := by decide
theorem witness_StepAbortsOnUnrecognizedByte :
    (st [5] [0x0C]).run = .running ∧ (st [5] [0x0C]).mem.read? (st [5] [0x0C]).pc = some 0x0C ∧
      decodeByte 0x0C = none := by decide
/-- `RunStateTransitions`: a step that halts by STOP, one that halts at the end of the code, one for each fault. -/
theorem witness_RunStateTransitions :
    runOf (step (st [] [0x00])) = some (.halted, .none) ∧ runOf (step (st [] [])) = some (.halted, .none) ∧
    runOf (step (st [] [0xFF])) = some (.aborted, .unrecognizedOpcode) ∧
    runOf (step (st [5] [0x01])) = some (.aborted, .stackUnderflow) := by decide
/-- `PushReadsBigEndianOperand` at the boundary `pc + 1 + n = LEN`. -/
theorem witness_PushReadsBigEndianOperand :
    (st [] [0x61, 0x01, 0x02]).mem.read? (st [] [0x61, 0x01, 0x02]).pc = some 0x61 ∧ decodeByte 0x61 = some .push2 ∧
      (st [] [0x61, 0x01, 0x02]).run = .running ∧ OpCode.push2.immBytes ≠ 0 ∧
      (st [] [0x61, 0x01, 0x02]).pc + 1 + OpCode.push2.immBytes ≤ (st [] [0x61, 0x01, 0x02]).mem.len := by decide
/-- `TruncatedPushSkipsOpcodeByte` one byte short. -/
theorem witness_TruncatedPushSkipsOpcodeByte :
    (st [] [0x61, 0x01]).mem.read? (st [] [0x61, 0x01]).pc = some 0x61 ∧ decodeByte 0x61 = some .push2 ∧
      (st [] [0x61, 0x01]).run = .running ∧ OpCode.push2.immBytes ≠ 0 ∧
      (st [] [0x61, 0x01]).mem.len < (st [] [0x61, 0x01]).pc + 1 + OpCode.push2.immBytes := by decide
theorem reset_inv : State.reset.Inv where
  mem_wf := by decide
  pc_le := by decide
  depth_le := by decide
  cause_none := by decide
  recorded_none := by decide
theorem witness_StepKeepsMachineInvariant : State.reset.Inv ∧ step State.reset = .next State.reset.halt :=
  ⟨reset_inv, rfl⟩
/-- `EqualBytesAreEqualMemory`: one memory, reached by two orders of writing. -/
theorem witness_EqualBytesAreEqualMemory :
    (Memory.ofBytes [1, 0, 2]).wf = true ∧ ((Memory.ofBytes [0, 0, 2]).write 0 1).wf = true ∧
      (Memory.ofBytes [0, 0, 2]).write 0 1 = Memory.ofBytes [1, 0, 2] := by decide
theorem witness_NoInstructionWritesCodeMemory : pcOf (step (st [] [0x60, 0x05])) = some 2 := by decide
theorem witness_PcAdvancesWithinCode :
    runOf (step (st [] [0x60, 0x05])) = some (.running, .none) ∧ pcOf (step (st [] [0x60, 0x05])) = some 2 := by decide
/-- `FinitePcAndStackSuffice` with `LEN = CODE_MAX` and the narrowest pc register. -/
theorem witness_FinitePcAndStackSuffice :
    ({ defaultParams with sizes := some ⟨3, 2, 3⟩ } : Config.Params).sizes = some ⟨3, 2, 3⟩ ∧
      (⟨3, 2, 3⟩ : Config.Sizes).Valid ∧ [(0x5F : Byte), 0x5F, 0x5F].length ≤ 3 ∧
      (loopWith { defaultParams with sizes := some ⟨3, 2, 3⟩ } 3 (State.resetWith [0x5F, 0x5F, 0x5F])).run ≠ .aborted ∧
      3 < [(0x5F : Byte), 0x5F, 0x5F, 0x00].length :=
  ⟨rfl, ⟨by decide, by decide⟩, by decide, by decide, by decide⟩
/-- `TruncatedPushStayingPutNeverEnds`: PUSH1 as the last byte of the code, without and with sizes. -/
theorem witness_TruncatedPushStayingPutNeverEnds :
    (st [] [0x60]).TruncatedPush opmap ∧ (st [] [0x60]).fits ⟨1, 1, 1⟩ = true :=
  ⟨⟨by decide, 0x60, .push1, by decide, by decide, by decide, by decide⟩, by decide⟩
/-- `FrameOfCompletedInstruction`: a completed instruction of each of its cases (STOP, no push, one push). -/
theorem witness_FrameOfCompletedInstruction :
    runOf (exec .stop (st [7] [])) = some (.halted, .none) ∧ runOf (exec .pop (st [7] [])) = some (.running, .none) ∧
    runOf (exec .add (st [7, 5] [])) = some (.running, .none) ∧
    runOf (exec (.push2 none) (st [7] [])) = some (.running, .none) := by decide
theorem witness_WordsBelowOperandsUntouched :
    (st [] []).run = .running ∧ [(1 : Word), 2, 3].length = Instr.addmod.opcode.pops := by decide
theorem witness_UnderflowExactlyWhenOperandsMissing :
    (st [5] []).run = .running ∧ (st [5] []).stack.length < Instr.add.opcode.pops ∧
      ¬ (st [5] []).stack.length < Instr.pop.opcode.pops := by decide
theorem witness_UnderflowRecordsOpcodeAndPc : (st [5, 6] []).stack.length < Instr.addmod.opcode.pops := by decide
theorem witness_PopNReturnsMostRecentFirst : popN 2 [(1 : Word), 2, 3] = some ([3, 2], [1]) := by decide
theorem witness_PopDiscardsTop : (st [7, 9] []).stack = [7] ++ [9] ∧ (st [] []).stack = [] := by decide

/-- The step clauses of `StopHaltsAndChangesNothingElse` and `Push0PushesZero`, the byte the last of the code. -/
theorem witness_Stop_Push0 :
    (st [] [0x00]).run = .running ∧ (st [] [0x00]).mem.read? (st [] [0x00]).pc = some 0x00 ∧
      decodeByte 0x00 = some .stop ∧ (st [] [0x5F]).mem.read? (st [] [0x5F]).pc = some 0x5F ∧
      decodeByte 0x5F = some .push0 := by decide

/-- The hypotheses of every result statement about two operands: both clauses, the first with nothing below the operands,
the second one Word short (ADD, SUB, MUL, DIV, MOD, EXP, SDIV, SMOD, SIGNEXTEND, LT, GT, SLT, SGT, ComparisonTotality). -/
theorem witness_two_operands :
    (st [5, 3] []).stack = [] ++ [5, 3] ∧ (st [5] []).stack.length < 2 := by decide
/-- The zero and the nonzero divisor of DIV, MOD, SDIV, SMOD and the DivModIdentity, and of ZeroDivisorPushesZero. -/
theorem witness_two_operands_divisor :
    (st [0, 3] []).stack = [] ++ [0, 3] ∧ (st [5, 3] []).stack = [] ++ [5, 3] ∧ (5 : Word) ≠ 0 := by decide
/-- The hypotheses of ADDMOD and MULMOD: both clauses, the zero and the nonzero modulus. -/
theorem witness_three_operands :
    (st [8, 5, 3] []).stack = [] ++ [8, 5, 3] ∧ (8 : Word) ≠ 0 ∧ (st [0, 5, 3] []).stack = [] ++ [0, 5, 3] ∧
      (st [5, 3] []).stack.length < 3 := by decide
theorem witness_AddThenSubRestores : (st [7, 2, 2, maxW] []).stack = [7] ++ [2, 2, maxW] := by decide
theorem witness_MagIsAbsoluteSignedValue : (1 : Word) ≠ minS := by decide
/-- `SignextendRewritesBytesAboveK` and `SignextendKeepsLowBitsSigned`: each side of `k = 31`, and 31 itself. -/
theorem witness_Signextend :
    (st [0x80, 31] []).stack = [] ++ [0x80, 31] ∧ (31 : Word).toNat ≤ 31 ∧ 31 ≤ (31 : Word).toNat ∧
      31 < (32 : Word).toNat ∧ (st [0x80] []).stack.length < 2 := by decide
/-- `ComparisonTotality`: different and equal operands. -/
theorem witness_ComparisonTotality :
    (st [5, 3] []).stack = [] ++ [5, 3] ∧ (3 : Word) ≠ 5 ∧ (st [5, 5] []).stack = [] ++ [5, 5] := by decide
/-- `EveryExecutionTerminates`: at `LEN = CODE_MAX`. -/
theorem witness_EveryExecutionTerminates :
    ({ defaultParams with sizes := some ⟨1, 1, 1⟩ } : Config.Params).truncPush = .opcodeOnly ∧
      (⟨1, 1, 1⟩ : Config.Sizes).Valid ∧ accepts { defaultParams with sizes := some ⟨1, 1, 1⟩ } [0x00] = true ∧
      [(0x00 : Byte)].length + 1 ≤ 2 :=
  ⟨rfl, ⟨by decide, by decide⟩, by decide, by decide⟩
/-- `ResultDependsOnFetchedBytesOnly`: `60 05 00` and `60 05 00 FF`, halted by STOP at address 2. -/
theorem witness_ResultDependsOnFetchedBytesOnly :
    (loop 1 (State.resetWith [0x60, 0x05, 0x00])).run = .running ∧
    (loop 1 (State.resetWith [0x60, 0x05, 0x00])).pc = 2 ∧ 2 < [(0x60 : Byte), 0x05, 0x00].length ∧
    (loop 2 (State.resetWith [0x60, 0x05, 0x00])).Terminal ∧
    (∀ j, j < 1 → ¬ (loop j (State.resetWith [0x60, 0x05, 0x00])).TruncatedPush opmap) ∧
    2 < [(0x60 : Byte), 0x05, 0x00, 0xFF].length ∧
    (∀ a, a ≤ 2 → [(0x60 : Byte), 0x05, 0x00][a]? = [(0x60 : Byte), 0x05, 0x00, 0xFF][a]?) := by
  refine ⟨by decide, by decide, by decide, .inl (by decide), fun j hj => ?_, by decide, by decide⟩
  obtain rfl : j = 0 := by omega
  rintro ⟨-, b, op, hb, hd, -, hl⟩
  obtain rfl : 0x60 = b := Option.some.inj hb
  obtain rfl : OpCode.push1 = op := Option.some.inj hd
  exact absurd hl (by decide)

end Sys2Proof.Tests
end

/-! ### Which run state an instruction and a step enter (10_state.md R28) -/

namespace Sys2Proof.Machine

/-- STOP is the only instruction of its OpCode. -/
@[simp] theorem opcode_eq_stop {i : Instr} : i.opcode = .stop ↔ i = .stop := by
  cases i <;> simp [Instr.opcode]

/-- From Running, STOP alone halts. -/
theorem exec_halted_iff {i : Instr} {s t : State} (hr : s.run = .running) (h : exec i s = .next t) :
    t.run = .halted ↔ i = .stop := by
  obtain ⟨rfl, rfl⟩ | ⟨hl, rfl⟩ | ⟨hi, _, _, _, -, -, -, rfl⟩ := exec_cases h
  · simp
  · have hi : i ≠ .stop := by rintro rfl; exact absurd hl (Nat.not_lt_zero _)
    simp [hi]
  · simp [hr, hi]

/-- From Running, an instruction aborts exactly when an operand is missing. -/
theorem exec_aborted_iff {i : Instr} {s t : State} (hr : s.run = .running) (h : exec i s = .next t) :
    t.run = .aborted ↔ s.stack.length < i.opcode.pops := by
  obtain ⟨rfl, rfl⟩ | ⟨hl, rfl⟩ | ⟨-, rest, ops, _, hs, ho, -, rfl⟩ := exec_cases h
  · simp [Instr.opcode, OpCode.pops]
  · simp [hl]
  · have hle : i.opcode.pops ≤ s.stack.length := by simp [hs, ho]
    simp [hr, hle]

/-- An instruction with a missing operand names `StackUnderflow` as the cause. -/
theorem exec_cause_of_underflow {i : Instr} {s t : State} (h : exec i s = .next t)
    (hl : s.stack.length < i.opcode.pops) : t.cause = .stackUnderflow := by
  obtain ⟨rfl, -⟩ | ⟨-, rfl⟩ | ⟨-, rest, ops, _, hs, ho, -, -⟩ := exec_cases h
  · exact absurd hl (Nat.not_lt_zero _)
  · rfl
  · simp [hs, ho] at hl

/-- A step enters Halted exactly at the end of the code and on STOP. -/
theorem step_halted_iff {s t : State} (h : step s = .next t) :
    t.run = .halted ↔ s.pc = s.mem.len ∨ ∃ b, s.mem.read? s.pc = some b ∧ decodeByte b = some .stop := by
  simp only [Memory.read?_eq_some]
  obtain ⟨hr, ⟨hpc, rfl⟩ | ⟨hpc, hd, rfl⟩ | ⟨hpc, i, hd, -, he⟩⟩ := step_cases h
  · simp [hpc]
  · simp [hpc.ne, hd]
  · simp [exec_halted_iff hr he, hpc, hpc.ne, hd]

/-- A step enters Aborted exactly on an unrecognized byte and on a missing operand, each with its cause. -/
theorem step_aborted_iff {s t : State} (h : step s = .next t) :
    t.run = .aborted ↔
      ∃ b, s.mem.read? s.pc = some b ∧
        ((decodeByte b = none ∧ t.cause = .unrecognizedOpcode) ∨
         ∃ op, decodeByte b = some op ∧ s.stack.length < op.pops ∧ t.cause = .stackUnderflow) := by
  simp only [Memory.read?_eq_some]
  obtain ⟨hr, ⟨hpc, rfl⟩ | ⟨hpc, hd, rfl⟩ | ⟨hpc, i, hd, -, he⟩⟩ := step_cases h
  · simp [hpc]
  · simp [hpc, hd]
  · simpa [exec_aborted_iff hr he, hpc, hd] using exec_cause_of_underflow he

/-- Settles O8: a step exists only in Running, and what `step` can do decides the run state it enters. -/
theorem runStateTransitions : Obligations.RunStateTransitions :=
  ⟨State.resetWith_run, fun _ _ h => ⟨(step_cases h).1, step_halted_iff h, step_aborted_iff h⟩⟩

/-! ### What an instruction does to a stack that holds its operands on top (10_state.md R24) -/

/-- No instruction pushes more than one Word. -/
theorem pushes_le_one (i : Instr) : i.pushes ≤ 1 := by
  cases i with
  | push1 imm | push2 imm | push4 imm | push6 imm | push10 imm | push11 imm | push32 imm =>
    cases imm <;> simp [Instr.pushes]
  | _ => simp [Instr.pushes]

/-- A meaning of a given shape on a stack with its operands on top: they give way to the Words `f` makes of them. -/
theorem HasShape.next_of_append {op : OpCode} {n len : Nat} {f : List Word → List Word}
    {m : State → Host.Outcome State Fault Refusal} (hm : HasShape op n len f m) {s : State} {rest ops : List Word}
    (hs : s.stack = rest ++ ops) (ho : ops.length = n) : m s = .next (s.advance len (rest ++ f ops)) := by
  obtain ⟨hl, -⟩ | ⟨rest', ops', hs', ho', he⟩ := hm s
  · simp [hs, ho] at hl
  · obtain ⟨rfl, rfl⟩ := List.append_inj' (hs'.symm.trans hs) (ho'.trans ho.symm)
    exact he

/-- Settles O21: STOP leaves the stack alone; any other instruction pushes what `exec_shape` makes of the operands alone,
whatever lies below them. -/
theorem wordsBelowOperandsUntouched : Obligations.WordsBelowOperandsUntouched := by
  intro i s below below' ops hr ho
  by_cases hi : i = .stop
  · subst hi
    obtain rfl : ops = [] := List.eq_nil_of_length_eq_zero ho
    exact ⟨s.halt, [], rfl, rfl, by simp, by simp⟩
  · obtain ⟨f, hf, hs⟩ := exec_shape i hi
    have hlen : (f ops).length ≤ 1 := (hf ops ho).trans_le (pushes_le_one i)
    exact ⟨s.advance i.size [], f ops, hs.next_of_append rfl ho, hs.next_of_append rfl ho, hlen, by simp [hr]⟩

end Sys2Proof.Machine

/-! ### The code memory is never written (20_memory.md R41) -/

namespace Sys2Proof.Machine

/-- No step of the machine writes the code memory: `step` is `stepWith` under the default parameters. -/
theorem step_mem {s t : State} (h : step s = .next t) : t.mem = s.mem :=
  stepWith_mem (p := defaultParams) h

/-- Settles O16: an instruction and a step hand on the same memory, so its length and every read stay. -/
theorem noInstructionWritesCodeMemory : Obligations.NoInstructionWritesCodeMemory := by
  intro s t h
  have hmem : t.mem = s.mem := by
    obtain ⟨i, he⟩ | hs := h
    · exact exec_mem he
    · exact step_mem hs
  rw [hmem]
  exact ⟨rfl, fun _ => rfl⟩

end Sys2Proof.Machine

/-! ### The operand bytes as a number (20_memory.md R44, 30_encoding.md R65) -/

namespace Sys2Proof.Machine

/-- A big-endian read, byte by byte: the lower the address, the higher the weight. -/
theorem Memory.memRead_eq_sum (m : Memory) (a n : Nat) :
    m.memRead a n = ∑ j ∈ Finset.range n, (m.byteAt (a + j)).toNat * 256 ^ (n - 1 - j) := by
  induction n generalizing a with
  | zero => rfl
  | succ n ih =>
    calc m.memRead a (n + 1)
      _ = (m.byteAt a).toNat * 256 ^ n + m.memRead (a + 1) n := by
        simp [Memory.memRead, Memory.bytes_succ, beNat_cons]
      _ = ∑ j ∈ Finset.range (n + 1), (m.byteAt (a + j)).toNat * 256 ^ (n + 1 - 1 - j) := by
        rw [ih, Finset.sum_range_succ', Nat.add_comm]
        refine congrArg₂ _ (Finset.sum_congr rfl fun j _ => ?_) rfl
        rw [Nat.add_assoc a 1 j, Nat.add_comm 1 j, Nat.add_sub_cancel, Nat.sub_sub, Nat.add_comm 1 j]

/-- A read of at most 32 bytes is kept exactly by a Word. -/
theorem Memory.toNat_ofNat_memRead (m : Memory) (a : Nat) {n : Nat} (hn : n ≤ 32) :
    (BitVec.ofNat 256 (m.memRead a n)).toNat = m.memRead a n := by
  have hlt : m.memRead a n < 256 ^ n := by
    simpa [Memory.memRead] using beNat_lt (m.bytes a n)
  have hle : 256 ^ n ≤ 256 ^ 32 := Nat.pow_le_pow_right (by decide) hn
  rw [BitVec.toNat_ofNat]
  exact Nat.mod_eq_of_lt (hlt.trans_le hle)

/-! ### The step of a recognized byte, by the form of its operand (30_encoding.md R60, R62) -/

section RecognizedByte
variable {s : State} {b : Byte} {op : OpCode} (hr : s.run = .running) (hb : s.mem.read? s.pc = some b)
  (hd : decodeByte b = some op)
include hr hb hd

/-- The step of a recognized byte performs its OpCode with the operand taken from the bytes after it. -/
theorem step_of_decodeByte :
    step s = exec (takeOperand op
      (s.mem.bytes (s.pc + 1) (min (Config.maxInstrBytes - 1) (s.mem.len - (s.pc + 1))))).1 s := by
  obtain ⟨hlt, rfl⟩ := Memory.read?_eq_some.mp hb
  simp [step_fetch hr hlt, hd]

/-- Format `O`: whatever follows the byte is not looked at. -/
theorem step_of_formatO (h0 : op.immBytes = 0) : step s = exec (op.instr none) s := by
  simp [step_of_decodeByte hr hb hd, takeOperand, h0]

/-- Format `P(n)` with its `n` operand bytes inside the code: the immediate is their big-endian value. -/
theorem step_of_fullOperand (hn : op.immBytes ≠ 0) (hlen : s.pc + 1 + op.immBytes ≤ s.mem.len) :
    step s = exec (op.instr (some (BitVec.ofNat 256 (s.mem.memRead (s.pc + 1) op.immBytes)))) s := by
  have hle : op.immBytes ≤ min (Config.maxInstrBytes - 1) (s.mem.len - (s.pc + 1)) :=
    le_min op.immBytes_le (by omega)
  rw [step_of_decodeByte hr hb hd, takeOperand, if_neg hn, if_pos (by simpa using hle), Memory.bytes_take _ _ hle,
    Memory.memRead]

end RecognizedByte

/-! ### The stack instructions (40_stack.md R82 to R84) -/

/-- A meaning of a given shape with an operand missing. -/
theorem HasShape.next_of_underflow {op : OpCode} {n len : Nat} {f : List Word → List Word}
    {m : State → Host.Outcome State Fault Refusal} (hm : HasShape op n len f m) {s : State}
    (hl : s.stack.length < n) : m s = .next (s.raiseUnderflow op) := by
  obtain ⟨-, he⟩ | ⟨rest, ops, hs, ho, -⟩ := hm s
  · exact he
  · simp [hs, ho] at hl

/-- The seven widths of an immediate. -/
theorem immBytes_mem_widths {op : OpCode} (hn : op.immBytes ≠ 0) :
    op.immBytes ∈ [1, 2, 4, 6, 10, 11, 32] := by
  cases op with
  | push1 | push2 | push4 | push6 | push10 | push11 | push32 => simp [OpCode.immBytes]
  | _ => exact absurd rfl hn

/-- A PUSHn with an immediate pushes it and moves `pc` past the opcode byte and the `n` operand bytes. -/
theorem exec_push_some {op : OpCode} (hn : op.immBytes ≠ 0) (w : Word) (s : State) :
    exec (op.instr (some w)) s = .next (s.advance (1 + op.immBytes) (s.stack ++ [w])) := by
  cases op with
  | push1 | push2 | push4 | push6 | push10 | push11 | push32 => rfl
  | _ => exact absurd rfl hn

/-- Settles O10: the step is the PUSHn whose immediate is the big-endian read of its operand bytes; a Word holds it. -/
theorem pushReadsBigEndianOperand : Obligations.PushReadsBigEndianOperand := by
  intro s b op hr hb hd hn hlen
  refine ⟨immBytes_mem_widths hn, BitVec.ofNat 256 (s.mem.memRead (s.pc + 1) op.immBytes), ?_, ?_⟩
  · rw [step_of_fullOperand hr hb hd hn hlen, exec_push_some hn, State.advance, Nat.add_assoc]
  · rw [Memory.toNat_ofNat_memRead _ _ op.immBytes_le, Memory.memRead_eq_sum]

/-- Settles O26: POP has one operand and puts nothing in its place. -/
theorem popDiscardsTop : Obligations.PopDiscardsTop := by
  refine ⟨rfl, fun s rest a hs => ?_, fun s hs => ?_⟩
  · have hpop : exec .pop s = .next (s.advance 1 (rest ++ [])) := execPop_shape.next_of_append hs rfl
    rwa [List.append_nil] at hpop
  · have hpop : exec .pop s = .next (s.raiseUnderflow .pop) := execPop_shape.next_of_underflow (by simp [hs])
    exact ⟨_, hpop, ⟨State.raiseUnderflow_run .., State.raiseUnderflow_cause ..⟩, State.raiseUnderflow_mem ..⟩

/-- Settles O27: PUSH0 is of format `O`, so its step is its meaning at every address of the code. -/
theorem push0PushesZero : Obligations.Push0PushesZero := by
  have hexec (s : State) : exec .push0 s = .next { s with stack := s.stack ++ [0], pc := s.pc + 1 } := rfl
  exact ⟨hexec, fun s b hr hb hd => (step_of_formatO hr hb hd rfl).trans (hexec s)⟩

end Sys2Proof.Machine

/-! ### The unsigned unit: ADD, SUB, MUL, DIV, MOD (spec/41_arithmetic_unsigned.md) -/

namespace Sys2Proof.Machine

/-! What each operation makes of two Words, by value -/

/-- The sum is reduced modulo `2^256` (R101). -/
theorem addWord_toNat (a b : Word) : (addWord a b).toNat = (a.toNat + b.toNat) % 2 ^ 256 :=
  BitVec.toNat_ofNat _ _

/-- The integer difference is reduced into `[0, 2^256)`, also where it is negative (R102). -/
theorem subWord_toNat (a b : Word) : ((subWord a b).toNat : Int) = ((a.toNat : Int) - b.toNat) % 2 ^ 256 := by
  rw [subWord, BitVec.toNat_ofInt]
  exact Int.toNat_of_nonneg (Int.emod_nonneg _ (by decide))

/-- The product is reduced modulo `2^256` (R103). -/
theorem mulWord_toNat (a b : Word) : (mulWord a b).toNat = a.toNat * b.toNat % 2 ^ 256 :=
  BitVec.toNat_ofNat _ _

/-- For a nonzero divisor the quotient is exact: it is at most the dividend, so a Word holds it (R104). -/
theorem divWord_toNat {a b : Word} (hb : b ≠ 0) : (divWord a b).toNat = a.toNat / b.toNat := by
  have hlt : a.toNat / b.toNat < 2 ^ 256 := (Nat.div_le_self _ _).trans_lt a.isLt
  rw [divWord, if_neg hb, BitVec.toNat_ofNat, Nat.mod_eq_of_lt hlt]

/-- For a nonzero modulus the remainder is exact: it is at most the dividend, so a Word holds it (R105). -/
theorem modWord_toNat {a b : Word} (hb : b ≠ 0) : (modWord a b).toNat = a.toNat % b.toNat := by
  have hlt : a.toNat % b.toNat < 2 ^ 256 := (Nat.mod_le _ _).trans_lt a.isLt
  rw [modWord, if_neg hb, BitVec.toNat_ofNat, Nat.mod_eq_of_lt hlt]

/-- Subtracting what was added gives the first Word back, also where the sum wraps (R110). -/
theorem subWord_addWord_cancel (a b : Word) : subWord (addWord a b) b = a := by
  have hsum := addWord_toNat a b
  have hdiff := subWord_toNat (addWord a b) b
  have ha := a.isLt
  apply BitVec.eq_of_toNat_eq
  omega

/-! A zero divisor or modulus gives 0, whatever the other operands (R104 to R107, R112, R122, R123) -/

theorem divWord_zero (a : Word) : divWord a 0 = 0 := if_pos rfl
theorem modWord_zero (a : Word) : modWord a 0 = 0 := if_pos rfl
theorem sdivWord_zero (a : Word) : sdivWord a 0 = 0 := if_pos rfl
theorem smodWord_zero (a : Word) : smodWord a 0 = 0 := if_pos rfl
theorem addmodWord_zero (a b : Word) : addmodWord a b 0 = 0 := if_pos rfl
theorem mulmodWord_zero (a b : Word) : mulmodWord a b 0 = 0 := if_pos rfl

/-! A two-operand instruction by a property of the Word it pushes -/

/-- Whatever relation `f` meets on all Words, the Word that replaces the two operands meets it; an operand missing, the
instruction aborts by StackUnderflow and leaves the code memory alone (R100, R109). -/
theorem binary_pushes_or_underflows (op : OpCode) {f : Word → Word → Word} {P : Word → Word → Word → Prop}
    (hf : ∀ a b, P a b (f a b)) :
    (∀ (s : State) (rest : List Word) (a b : Word), s.stack = rest ++ [b, a] →
      ∃ w : Word, binary op f s = .next { s with stack := rest ++ [w], pc := s.pc + 1 } ∧ P a b w) ∧
    ∀ s : State, s.stack.length < 2 →
      ∃ t, binary op f s = .next t ∧ t.AbortedBy .stackUnderflow ∧ t.mem = s.mem :=
  ⟨fun _ _ a b hs => ⟨f a b, binary_append op f hs, hf a b⟩, fun s hl =>
    ⟨s.raiseUnderflow op, binary_underflow op f hl, ⟨State.raiseUnderflow_run .., State.raiseUnderflow_cause ..⟩,
      State.raiseUnderflow_mem ..⟩⟩

/-- Settles O29: ADD pushes `addWord`, which is the sum modulo `2^256`. -/
theorem addPushesSumModulo : Obligations.AddPushesSumModulo :=
  ⟨rfl, binary_pushes_or_underflows .add addWord_toNat⟩

/-- Settles O30: SUB pushes `subWord`, which is the integer difference modulo `2^256`. -/
theorem subPushesDifferenceModulo : Obligations.SubPushesDifferenceModulo :=
  binary_pushes_or_underflows .sub subWord_toNat

/-- Settles O31: MUL pushes `mulWord`, which is the product modulo `2^256`. -/
theorem mulPushesProductModulo : Obligations.MulPushesProductModulo :=
  binary_pushes_or_underflows .mul mulWord_toNat

/-- Settles O32: DIV pushes `divWord`, which is 0 or the floor quotient. -/
theorem divPushesFloorQuotient : Obligations.DivPushesFloorQuotient :=
  binary_pushes_or_underflows .div fun a _ => ⟨fun hb => hb ▸ divWord_zero a, divWord_toNat⟩

/-- Settles O33: MOD pushes `modWord`, which is 0 or the remainder. -/
theorem modPushesRemainder : Obligations.ModPushesRemainder :=
  binary_pushes_or_underflows .mod fun a _ => ⟨fun hb => hb ▸ modWord_zero a, modWord_toNat⟩

/-- Settles O37: ADD leaves the second `b` below its sum, where SUB finds it. -/
theorem addThenSubRestores : Obligations.AddThenSubRestores := by
  intro s rest a b hs
  have hadd : exec .add s = .next (s.advance 1 (rest ++ [b] ++ [addWord a b])) :=
    binary_append .add addWord (by simp [hs])
  have hsub : exec .sub (s.advance 1 (rest ++ [b] ++ [addWord a b])) =
      .next ((s.advance 1 (rest ++ [b] ++ [addWord a b])).advance 1 (rest ++ [subWord (addWord a b) b])) :=
    binary_append .sub subWord (by simp)
  rw [subWord_addWord_cancel] at hsub
  exact ⟨_, hadd, hsub⟩

/-- Settles O38: the identity and the bound are those of the natural numbers, for quotient and remainder are exact. -/
theorem divModIdentity : Obligations.DivModIdentity := by
  intro s rest a b hs hb
  have hpos : 0 < b.toNat := Nat.pos_of_ne_zero fun h => hb (BitVec.eq_of_toNat_eq h)
  refine ⟨divWord a b, modWord a b, binary_append .div divWord hs, binary_append .mod modWord hs, ?_⟩
  rw [divWord_toNat hb, modWord_toNat hb]
  exact ⟨(Nat.div_add_mod' _ _).symm, Nat.mod_lt _ hpos⟩

/-- Settles O39: each of the six operations makes 0 of a zero divisor or modulus, and pushes it. -/
theorem zeroDivisorPushesZero : Obligations.ZeroDivisorPushesZero := by
  constructor
  · intro s rest a hs
    have hzero (op : OpCode) {f : Word → Word → Word} (hf : f a 0 = 0) :
        binary op f s = .next (s.advance 1 (rest ++ [0])) := hf ▸ binary_append op f hs
    simp only [List.forall_mem_cons]
    exact ⟨hzero .div (divWord_zero a), hzero .mod (modWord_zero a), hzero .sdiv (sdivWord_zero a),
      hzero .smod (smodWord_zero a), List.forall_mem_nil _⟩
  · intro s rest a b hs
    have hzero (op : OpCode) {f : Word → Word → Word → Word} (hf : f a b 0 = 0) :
        ternary op f s = .next (s.advance 1 (rest ++ [0])) := hf ▸ ternary_append op f hs
    simp only [List.forall_mem_cons]
    exact ⟨hzero .addmod (addmodWord_zero a b), hzero .mulmod (mulmodWord_zero a b), List.forall_mem_nil _⟩

end Sys2Proof.Machine

/-! ### The negation of a Word (42_arithmetic_signed.md R120) -/

namespace Sys2Proof.Machine

/-- The Word form of the negation, as the other phrasing of R120 has it. -/
theorem negate_eq_not_add_one (x : Word) : negate x = ~~~x + 1 :=
  (negate_eq_neg x).trans (BitVec.neg_eq_not_add x)

@[simp] theorem negate_negate (x : Word) : negate (negate x) = x := by
  rw [negate_eq_neg, negate_eq_neg, BitVec.neg_neg]

@[simp] theorem negate_zero : negate 0 = 0 :=
  (negate_eq_neg 0).trans (BitVec.neg_zero 256)

/-- `MINS` is the library's least signed value, which has no positive counterpart. -/
theorem minS_eq_intMin : minS = BitVec.intMin 256 := rfl

@[simp] theorem negate_minS : negate minS = minS := by
  rw [negate_eq_neg, minS_eq_intMin, BitVec.neg_intMin]

/-- Settles O40: `negate` is the library's negation, an involution that fixes 0 and the least signed value. -/
theorem negateIsSelfInverse : Obligations.NegateIsSelfInverse :=
  ⟨fun x => ⟨negate_toNat x, negate_eq_not_add_one x, negate_negate x⟩, negate_zero, negate_minS⟩

end Sys2Proof.Machine

/-! ### The comparison unit: LT, GT, SLT, SGT (spec/44_comparison.md) -/

namespace Sys2Proof.Machine

/-! The signed view of a Word by its sign (00_scope.md R10, 42_arithmetic_signed.md R121) -/

theorem toS_of_not_isNeg {w : Word} (h : isNeg w = false) : toS w = w.toNat :=
  toS_of_lt (by simpa [isNeg_eq] using h)

theorem negate_toNat_of_isNeg {w : Word} (h : isNeg w = true) : ((negate w).toNat : Int) = -toS w := by
  have hge : 2 ^ 255 ≤ w.toNat := by simpa [isNeg_eq] using h
  have hlt := w.isLt
  rw [negate_toNat, toS_of_ge hge]
  omega

theorem toS_neg_of_isNeg {w : Word} (h : isNeg w = true) : toS w < 0 := by
  have hge : 2 ^ 255 ≤ w.toNat := by simpa [isNeg_eq] using h
  have hlt := w.isLt
  rw [toS_of_ge hge]
  omega

/-- The signed view tells Words apart. -/
theorem toS_inj {a b : Word} : toS a = toS b ↔ a = b := by
  rw [toS_eq_toInt, toS_eq_toInt, BitVec.toInt_inj]

/-! Each comparison by the order it decides -/

theorem truthWord_decide (p : Prop) [Decidable p] : truthWord (decide p) = if p then 1 else 0 := by
  by_cases hp : p <;> simp [hp]

/-- LT by value (R141). -/
theorem ltWord_eq (a b : Word) : ltWord a b = if a.toNat < b.toNat then 1 else 0 :=
  truthWord_decide _

/-- GT by value (R142). -/
theorem gtWord_eq (a b : Word) : gtWord a b = if b.toNat < a.toNat then 1 else 0 :=
  truthWord_decide _

/-- The four cases of R143 are the signed order: the sign decides where the signs differ, and two negative Words stand
in the reverse order of their magnitudes. -/
theorem sltWord_eq (a b : Word) : sltWord a b = if toS a < toS b then 1 else 0 := by
  rw [← truthWord_decide]
  unfold sltWord
  split <;> refine congrArg truthWord ?_
  next ha hb =>
    have := toS_neg_of_isNeg ha
    have := toS_of_not_isNeg hb
    exact (decide_eq_true (by omega)).symm
  next ha hb =>
    have := toS_of_not_isNeg ha
    have := toS_neg_of_isNeg hb
    exact (decide_eq_false (by omega)).symm
  next ha hb =>
    rw [toS_of_not_isNeg ha, toS_of_not_isNeg hb, decide_eq_decide, Int.ofNat_lt]
  next ha hb =>
    have := negate_toNat_of_isNeg ha
    have := negate_toNat_of_isNeg hb
    exact decide_eq_decide.mpr (by omega)

/-- The four cases of R144 are those of R143 on the exchanged operands. -/
theorem sgtWord_eq_sltWord_swap (a b : Word) : sgtWord a b = sltWord b a := by
  unfold sgtWord sltWord
  cases isNeg a <;> cases isNeg b <;> rfl

/-- SGT in the signed view (R144). -/
theorem sgtWord_eq (a b : Word) : sgtWord a b = if toS b < toS a then 1 else 0 :=
  (sgtWord_eq_sltWord_swap a b).trans (sltWord_eq b a)

/-! Totality is that of the order compared in (R145) -/

/-- In a linear order two different elements stand in one of the two strict orders and not in the other. -/
theorem exactly_one_lt_of_ne {α : Type} [LinearOrder α] {x y : α} (h : x ≠ y) :
    ((if x < y then 1 else 0 : Word) = 1 ∧ (if y < x then 1 else 0 : Word) = 0) ∨
    ((if x < y then 1 else 0 : Word) = 0 ∧ (if y < x then 1 else 0 : Word) = 1) := by
  rcases lt_or_gt_of_ne h with hlt | hgt
  · exact .inl ⟨if_pos hlt, if_neg hlt.not_gt⟩
  · exact .inr ⟨if_neg hgt.not_gt, if_pos hgt⟩

theorem ltWord_gtWord_of_ne {a b : Word} (h : a ≠ b) :
    (ltWord a b = 1 ∧ gtWord a b = 0) ∨ (ltWord a b = 0 ∧ gtWord a b = 1) := by
  rw [ltWord_eq, gtWord_eq]
  exact exactly_one_lt_of_ne fun heq => h (BitVec.eq_of_toNat_eq heq)

theorem sltWord_sgtWord_of_ne {a b : Word} (h : a ≠ b) :
    (sltWord a b = 1 ∧ sgtWord a b = 0) ∨ (sltWord a b = 0 ∧ sgtWord a b = 1) := by
  rw [sltWord_eq, sgtWord_eq]
  exact exactly_one_lt_of_ne fun heq => h (toS_inj.mp heq)

@[simp] theorem ltWord_self (a : Word) : ltWord a a = 0 := by simp [ltWord_eq]
@[simp] theorem gtWord_self (a : Word) : gtWord a a = 0 := by simp [gtWord_eq]
@[simp] theorem sltWord_self (a : Word) : sltWord a a = 0 := by simp [sltWord_eq]
@[simp] theorem sgtWord_self (a : Word) : sgtWord a a = 0 := by simp [sgtWord_eq]

/-- Settles O50: the Words are those of two linear orders, the unsigned and the signed one. -/
theorem comparisonTotality : Obligations.ComparisonTotality := by
  intro s rest a b hs
  refine ⟨ltWord a b, gtWord a b, sltWord a b, sgtWord a b, binary_append .lt ltWord hs, binary_append .gt gtWord hs,
    binary_append .slt sltWord hs, binary_append .sgt sgtWord hs, ?_, ?_⟩
  · exact fun hne => ⟨ltWord_gtWord_of_ne hne, sltWord_sgtWord_of_ne hne⟩
  · rintro rfl
    exact ⟨ltWord_self a, gtWord_self a, sltWord_self a, sgtWord_self a⟩

/-! The two unsigned comparisons with their fault -/

/-- If `f` is `g` on all Words, `g` of the two operands replaces them; an operand missing, the instruction aborts by
StackUnderflow and leaves the code memory alone (R140). -/
theorem binary_replaces_or_underflows (op : OpCode) {f g : Word → Word → Word} (hfg : ∀ a b, f a b = g a b) :
    (∀ (s : State) (rest : List Word) (a b : Word), s.stack = rest ++ [b, a] →
      binary op f s = .next { s with stack := rest ++ [g a b], pc := s.pc + 1 }) ∧
    ∀ s : State, s.stack.length < 2 →
      ∃ t, binary op f s = .next t ∧ t.AbortedBy .stackUnderflow ∧ t.mem = s.mem := by
  obtain ⟨hpush, hfault⟩ := binary_pushes_or_underflows op (P := fun a b w => w = g a b) hfg
  refine ⟨fun s rest a b hs => ?_, hfault⟩
  obtain ⟨w, hw, rfl⟩ := hpush s rest a b hs
  exact hw

/-- Settles O46: LT pushes `ltWord`, which is the unsigned order. -/
theorem ltComparesUnsigned : Obligations.LtComparesUnsigned :=
  binary_replaces_or_underflows .lt ltWord_eq

/-- Settles O47: GT pushes `gtWord`, which is the reverse of the unsigned order. -/
theorem gtComparesUnsigned : Obligations.GtComparesUnsigned :=
  binary_replaces_or_underflows .gt gtWord_eq

end Sys2Proof.Machine

/-! ### The end of the code (45_execution_loop.md R152) -/

namespace Sys2Proof.Machine

/-- The bound that R152 draws: until an abort, `pc` is at most `LEN`. -/
def State.PcWithinCode (s : State) : Prop :=
  s.run ≠ .aborted → s.pc ≤ s.mem.len

theorem State.pcWithinCode_resetWith (code : List Byte) : (State.resetWith code).PcWithinCode :=
  fun _ => Nat.zero_le _

/-- A step leads to a `pc` within the code from whatever state it is taken: the bytes of a decoded instruction lie inside
the code. -/
theorem step_pcWithinCode {s t : State} (h : step s = .next t) : t.PcWithinCode := by
  obtain ⟨-, ⟨hpc, rfl⟩ | ⟨-, -, rfl⟩ | ⟨hpc, i, -, hsize, he⟩⟩ := step_cases h
  · exact fun _ => hpc.le
  · exact fun ha => absurd (State.raiseUnrecognized_run ..) ha
  · obtain ⟨-, rfl⟩ | ⟨-, rfl⟩ | ⟨-, _, _, _, -, -, -, rfl⟩ := exec_cases he
    · exact fun _ => hpc.le
    · exact fun ha => absurd (State.raiseUnderflow_run ..) ha
    · exact fun _ => hsize

/-- The code memory of an execution is that of its first state (20_memory.md R41). -/
@[simp] theorem loop_mem (k : Nat) (s : State) : (loop k s).mem = s.mem :=
  loop_induction (P := fun t => t.mem = s.mem) (fun _ _ hm h => (step_mem h).trans hm) k rfl

theorem loop_pcWithinCode (k : Nat) {s : State} (hs : s.PcWithinCode) : (loop k s).PcWithinCode :=
  loop_induction (fun _ _ _ h => step_pcWithinCode h) k hs

/-- `execute []` is one step: the reset state is at the end of its code. -/
theorem execute_nil : execute [] = some (.success []) := by
  have hstep : step (State.resetWith []) = .next (State.resetWith []).halt := step_endOfCode rfl rfl
  rw [execute_eq, List.length_nil, loop_succ_of_step hstep, loop_zero]
  rfl

/-- Settles O6: the step at the end of the code is `halt`, and every state of an execution has its `pc` within the code
with which it was reset. -/
theorem stepHaltsAtEndOfCode : Obligations.StepHaltsAtEndOfCode := by
  refine ⟨fun s hr hpc => ⟨s.halt, step_endOfCode hr hpc, rfl, rfl⟩, execute_nil, fun code k ha => ?_⟩
  have hpc := loop_pcWithinCode k (State.pcWithinCode_resetWith code) ha
  simpa using hpc

end Sys2Proof.Machine

/-! ### StackUnderflow (60_exceptions.md R173) -/

namespace Sys2Proof.Machine

/-- An execution fails when its first step aborts: no step follows it (R174). -/
theorem execute_failure_of_step_aborted {code : List Byte} {t : State} (h : step (State.resetWith code) = .next t)
    (ha : t.run = .aborted) : execute code = some .failure := by
  rw [execute_eq, loop_succ_of_step h, loop_of_not_running (by simp [ha])]
  simp [State.result, ha]

/-- The scenario of R173: POP is fetched and finds the empty stack of the reset. -/
theorem execute_pop_alone : execute [0x50] = some .failure := by
  have hfetch : step (State.resetWith [0x50]) = exec .pop (State.resetWith [0x50]) :=
    step_of_formatO (op := .pop) (b := 0x50) rfl (by decide) (by decide) rfl
  obtain ⟨-, -, hempty⟩ := popDiscardsTop
  obtain ⟨t, hpop, ⟨habort, -⟩, -⟩ := hempty (State.resetWith [0x50]) rfl
  exact execute_failure_of_step_aborted (hfetch.trans hpop) habort

/-- Settles O22: `exec` always answers a next state, which is aborted exactly when an operand is missing, and a missing
operand determines the cause. -/
theorem underflowExactlyWhenOperandsMissing : Obligations.UnderflowExactlyWhenOperandsMissing := by
  refine ⟨by decide, rfl, by decide, by decide, fun i s hr => ?_, execute_pop_alone⟩
  obtain ⟨t, he⟩ := exec_next i s
  have hiff := exec_aborted_iff hr he
  exact ⟨t, he, hiff, fun ha => exec_cause_of_underflow he (hiff.mp ha)⟩

end Sys2Proof.Machine

/-! ### The state after reset (70_reset_and_hazards.md R200) -/

namespace Sys2Proof.Machine

/-- The memory of a bytecode holds each of its bytes at that byte's index. -/
theorem Memory.byteAt_ofBytes {bs : List Byte} {a : Nat} (h : a < bs.length) :
    (Memory.ofBytes bs).byteAt a = bs[a] := by
  rw [Memory.ofBytes, Memory.byteAt_writeBytes]
  · simp [h]
  · rfl

/-- The memory of a bytecode reads as the bytecode: its bytes, and none beyond them (20_memory.md R40). -/
@[simp] theorem Memory.read?_ofBytes (bs : List Byte) (a : Nat) : (Memory.ofBytes bs).read? a = bs[a]? := by
  by_cases h : a < bs.length
  · rw [List.getElem?_eq_getElem h, Memory.read?_eq_some]
    exact ⟨by rwa [Memory.ofBytes_len], Memory.byteAt_ofBytes h⟩
  · simp [Memory.read?, h]

/-- Settles O14: the fields are those of `State.reset`, and the memory of the bytecode reads as the bytecode. -/
theorem resetSetsStateAndCode : Obligations.ResetSetsStateAndCode := fun code =>
  ⟨State.resetWith_pc code, State.resetWith_stack code, State.resetWith_run code, State.resetWith_cause code,
    Memory.ofBytes_len code, Memory.read?_ofBytes code⟩

end Sys2Proof.Machine

/-! ### Decoding and encoding are inverse, for every proper map (30_encoding.md R60 to R65) -/

namespace Sys2Proof

/-- With no key twice, a lookup finds exactly the pairs of the list. -/
theorem lookup_eq_some_iff_mem {α β : Type} [DecidableEq α] {l : List (α × β)} (h : (l.map Prod.fst).Nodup)
    {a : α} {b : β} : l.lookup a = some b ↔ (a, b) ∈ l := by
  rw [List.lookup_eq_some_iff]
  constructor
  · rintro ⟨l₁, l₂, rfl, -⟩
    simp
  · intro hm
    obtain ⟨l₁, l₂, rfl⟩ := List.append_of_mem hm
    refine ⟨l₁, l₂, rfl, fun p hp => ?_⟩
    rw [List.map_append, List.nodup_append] at h
    obtain ⟨-, -, hdisj⟩ := h
    simpa using (hdisj p.1 (List.mem_map_of_mem hp) a (by simp)).symm

section Proper
variable {m : Config.OpMap} (hm : m.Proper)
include hm

/-- The decoder's side of a proper map is the map. -/
theorem decodeByteWith_eq_some_iff_mem {b : Byte} {op : OpCode} : decodeByteWith m b = some op ↔ (b, op) ∈ m :=
  lookup_eq_some_iff_mem hm.1

/-- The encoder's side of a proper map is the map. -/
theorem opByteWith_eq_some_iff_mem {b : Byte} {op : OpCode} : opByteWith m op = some b ↔ (b, op) ∈ m := by
  obtain ⟨-, hops, -⟩ := hm
  constructor
  · intro h
    obtain ⟨⟨c, o⟩, hfind, rfl⟩ := Option.map_eq_some_iff.mp h
    obtain rfl : o = op := by simpa using List.find?_some hfind
    exact List.mem_of_find?_eq_some hfind
  · intro hmem
    have hsome : (m.find? fun r => decide (r.2 = op)).isSome := List.find?_isSome.mpr ⟨_, hmem, by simp⟩
    obtain ⟨r, hfind⟩ := Option.isSome_iff_exists.mp hsome
    have hop : r.2 = op := by simpa using List.find?_some hfind
    have hr : r = (b, op) := List.inj_on_of_nodup_map hops (List.mem_of_find?_eq_some hfind) hmem hop
    simp [opByteWith, hfind, hr]

/-- The two sides of a proper map agree: "no two mnemonics share a byte" (R63). -/
theorem decodeByteWith_eq_some_iff {b : Byte} {op : OpCode} :
    decodeByteWith m b = some op ↔ opByteWith m op = some b :=
  (decodeByteWith_eq_some_iff_mem hm).trans (opByteWith_eq_some_iff_mem hm).symm

/-- A proper map has a byte for every OpCode. -/
theorem exists_opByteWith (op : OpCode) : ∃ b, opByteWith m op = some b := by
  have ⟨_, _, hall⟩ := hm
  obtain ⟨⟨b, o⟩, hmem, rfl⟩ := List.mem_map.mp (hall op)
  exact ⟨b, (opByteWith_eq_some_iff_mem hm).mpr hmem⟩

/-- The bytes of an instruction: the byte of its OpCode, which the decoder reads as that OpCode, and its immediate. -/
theorem exists_encodeWith_eq_cons (i : Instr) :
    ∃ b, decodeByteWith m b = some i.opcode ∧ encodeWith m i = b :: i.immBytes := by
  obtain ⟨b, hb⟩ := exists_opByteWith hm i.opcode
  exact ⟨b, (decodeByteWith_eq_some_iff hm).mpr hb, by simp [encodeWith, hb]⟩

end Proper

/-- What decodes is a recognized byte and the instruction taken from the bytes after it. -/
theorem decodeWith_eq_ok_iff {m : Config.OpMap} {bs rest : List Byte} {i : Instr} :
    decodeWith m bs = .ok (i, rest) ↔
      ∃ b tail op, bs = b :: tail ∧ decodeByteWith m b = some op ∧ takeOperand op tail = (i, rest) := by
  cases bs with
  | nil => simp [decodeWith]
  | cons b tail =>
    rw [decodeWith_cons]
    cases h : decodeByteWith m b with
    | none => simp [h]
    | some op => simp [h]

/-- A PUSHn alone carries an immediate. -/
theorem immBytes_ne_zero_of_imm {i : Instr} {w : Word} (h : i.imm = some w) : i.opcode.immBytes ≠ 0 := by
  intro h0
  rw [← OpCode.opcode_instr_imm i, OpCode.instr_imm, if_pos h0] at h
  exact Option.some_ne_none w h.symm

/-- Taking the operand of a well-formed instruction from its immediate bytes and what follows them gives the instruction
back; behind a truncated PUSHn stand fewer than `n` bytes (R62). -/
theorem takeOperand_immBytes {i : Instr} {rest : List Byte} (hw : WellFormed i = true)
    (ht : i.imm = none → i.opcode.immBytes ≠ 0 → rest.length < i.opcode.immBytes) :
    takeOperand i.opcode (i.immBytes ++ rest) = (i, rest) := by
  cases hi : i.imm with
  | none =>
    have hinstr : i.opcode.instr none = i := by rw [← hi, OpCode.opcode_instr_imm]
    by_cases h0 : i.opcode.immBytes = 0
    · simp [takeOperand, Instr.immBytes, hi, h0, hinstr]
    · simp [takeOperand, Instr.immBytes, hi, h0, hinstr, Nat.not_le.mpr (ht hi h0)]
  | some w =>
    have hinstr : i.opcode.instr (some w) = i := by rw [← hi, OpCode.opcode_instr_imm]
    have hlt : w.toNat < 256 ^ i.opcode.immBytes := (wellFormed_iff i).mp hw w hi
    simp [takeOperand, Instr.immBytes, hi, immBytes_ne_zero_of_imm hi, beNat_beBytes, Nat.mod_eq_of_lt hlt, hinstr]

/-- An operand of `n` bytes is a value of `n` bytes, and a Word holds it. -/
theorem toNat_ofNat_beNat {bs : List Byte} (h : bs.length ≤ 32) : (BitVec.ofNat 256 (beNat bs)).toNat = beNat bs := by
  have hle : 256 ^ bs.length ≤ 256 ^ 32 := Nat.pow_le_pow_right (by decide) h
  rw [BitVec.toNat_ofNat]
  exact Nat.mod_eq_of_lt ((beNat_lt bs).trans_le hle)

/-- An instruction taken with its operand is a well-formed one of the given OpCode, and its immediate bytes with the
bytes left over are those it was taken from. -/
theorem takeOperand_spec {op : OpCode} {tail rest : List Byte} {i : Instr} (h : takeOperand op tail = (i, rest)) :
    i.opcode = op ∧ WellFormed i = true ∧ i.immBytes ++ rest = tail := by
  rw [wellFormed_iff]
  obtain ⟨-, e⟩ | ⟨hn, hl, e⟩ | ⟨-, -, e⟩ := takeOperand_cases op tail <;>
    obtain ⟨rfl, rfl⟩ := Prod.mk.inj (e.symm.trans h)
  · simp [OpCode.instr_imm, Instr.immBytes]
  · have htake : (tail.take op.immBytes).length = op.immBytes := by simp [hl]
    have hval := toNat_ofNat_beNat (htake.trans_le op.immBytes_le)
    have hlt := beNat_lt (tail.take op.immBytes)
    have hback := beBytes_beNat (tail.take op.immBytes)
    rw [htake] at hlt hback
    simp [OpCode.instr_imm, Instr.immBytes, hn, -BitVec.toNat_ofNat, hval, hlt, hback]
  · simp [OpCode.instr_imm, Instr.immBytes]

/-- The default map is proper (R63, D1). -/
theorem opmap_isProper : opmap.Proper := by
  refine ⟨by decide, by decide, fun op => ?_⟩
  cases op <;> decide

/-- Settles O3: the byte a proper map gives the OpCode decodes to it, and the immediate is read back from its bytes. -/
theorem decodeAfterEncode : Obligations.DecodeAfterEncode := by
  refine ⟨opmap_isProper, fun m i rest hm hw ht => ?_⟩
  obtain ⟨b, hb, he⟩ := exists_encodeWith_eq_cons hm i
  exact decodeWith_eq_ok_iff.mpr ⟨b, i.immBytes ++ rest, i.opcode, by simp [he], hb, takeOperand_immBytes hw ht⟩

/-- Settles O4: the byte that decoded to the OpCode is the one a proper map gives it, and the operand bytes are those of
the immediate. -/
theorem encodeAfterDecode : Obligations.EncodeAfterDecode := by
  intro m bs rest i hm h
  obtain ⟨b, tail, op, rfl, hb, hop⟩ := decodeWith_eq_ok_iff.mp h
  obtain ⟨rfl, hw, htail⟩ := takeOperand_spec hop
  have hbyte : opByteWith m i.opcode = some b := (decodeByteWith_eq_some_iff hm).mp hb
  exact ⟨hw, by simp [encodeWith, hbyte, htail]⟩

end Sys2Proof

/-! ### The machine invariant (10_state.md R21, R27, R29) -/

namespace Sys2Proof.Machine

/-- Every instruction takes at least its opcode byte. -/
theorem one_le_size (i : Instr) : 1 ≤ i.size := by
  unfold Instr.size
  split <;> omega

section Inv
variable {s : State}

/-- The halt changes `run` only, and it is no abort. -/
theorem State.Inv.halt (h : s.Inv) (hr : s.run = .running) : s.halt.Inv := by
  obtain ⟨hmem, hpc, hdepth, hcause, hrec⟩ := h
  constructor <;> simp_all

/-- An abort names its cause and records it; `pc` and the stack are free from there on. -/
theorem State.Inv.raise (h : s.Inv) {c : Cause} (hc : c ≠ .none) (info : Recorded) : (s.raise c info).Inv := by
  have hmem := h.mem_wf
  constructor <;> simp_all

/-- A completed instruction keeps the invariant if it stays within the code and pushes no more than the bytes passed. -/
theorem State.Inv.advance (h : s.Inv) (hr : s.run = .running) {len : Nat} {S : List Word} (hpc : s.pc + len ≤ s.mem.len)
    (hdepth : S.length ≤ s.pc + len) : (s.advance len S).Inv := by
  obtain ⟨hmem, -, -, hcause, hrec⟩ := h
  constructor <;> simp_all

/-- An instruction whose bytes lie inside the code keeps the invariant: it pushes at most one Word, and it has at least
one byte. -/
theorem exec_inv {t : State} {i : Instr} (h : s.Inv) (hr : s.run = .running) (hsize : s.pc + i.size ≤ s.mem.len)
    (he : exec i s = .next t) : t.Inv := by
  obtain ⟨-, rfl⟩ | ⟨-, rfl⟩ | ⟨-, rest, ops, pushed, hs, -, hp, rfl⟩ := exec_cases he
  · exact h.halt hr
  · exact h.raise (by simp) _
  · refine h.advance hr hsize ?_
    have hdepth := h.depth_le (by simp [hr])
    have hpush := pushes_le_one i
    have hone := one_le_size i
    simp only [hs, List.length_append, hp] at hdepth ⊢
    omega

/-- Every step keeps the machine invariant, under any parameters. -/
theorem stepWith_inv {p : Config.Params} {t : State} (h : s.Inv) (hstep : stepWith p s = .next t) : t.Inv := by
  obtain ⟨hr, ⟨-, rfl⟩ | ⟨-, -, rfl⟩ | ⟨-, i, -, hsize, he, -⟩⟩ := stepWith_cases hstep
  · exact h.halt hr
  · exact h.raise (by simp) _
  · obtain hexec | ⟨-, -, hstay⟩ := execWith_cases p.truncPush i s
    · exact exec_inv h hr hsize (hexec ▸ he)
    · obtain rfl := Host.Outcome.next.inj (hstay.symm.trans he)
      exact h

end Inv

/-- Settles O12: the step of the machine is the one under the default parameters. -/
theorem stepKeepsMachineInvariant : Obligations.StepKeepsMachineInvariant :=
  ⟨fun _ _ h hs => stepWith_inv (p := defaultParams) h hs, fun _ _ _ h hs => stepWith_inv h hs⟩

/-- The reset state is Running at 0 with the empty stack, over the canonical memory of the bytecode. -/
theorem State.resetWith_inv (code : List Byte) : (State.resetWith code).Inv := by
  have hwf := Memory.ofBytes_wf code
  constructor <;> simp [hwf]

/-- Settles O13: `State.reset` is the reset with the empty bytecode. -/
theorem resetMeetsMachineInvariant : Obligations.ResetMeetsMachineInvariant :=
  ⟨State.resetWith_inv [], State.resetWith_inv⟩

end Sys2Proof.Machine

/-! ### One step of the machine: when it exists, and which instruction it performs (45_execution_loop.md R150) -/

namespace Sys2Proof.Machine

/-- Without sizes a Running state within the code has a step. -/
theorem exists_stepWith {p : Config.Params} (hz : p.sizes = none) {s : State} (hr : s.run = .running)
    (hpc : s.pc ≤ s.mem.len) : ∃ t, stepWith p s = .next t := by
  rcases hpc.eq_or_lt with heq | hlt
  · exact ⟨_, stepWith_endOfCode hr heq⟩
  · rw [stepWith_fetch hr hlt, hz]
    simp only [withinSizes_none]
    cases decodeByteWith p.opmap (s.mem.byteAt s.pc) with
    | none => exact ⟨_, rfl⟩
    | some op => exact execWith_next p.truncPush _ s

/-- Settles O9: whatever a step reached, it started Running at the end of the code or inside it. -/
theorem stepExistsExactlyWhenRunningInsideCode : Obligations.StepExistsExactlyWhenRunningInsideCode := by
  refine fun s => ⟨fun ⟨t, h⟩ => ?_, fun ⟨hr, hpc⟩ => exists_stepWith defaultParams_sizes hr hpc⟩
  obtain ⟨hr, ⟨hpc, -⟩ | ⟨hpc, -, -⟩ | ⟨hpc, -⟩⟩ := step_cases h
  · exact ⟨hr, hpc.le⟩
  · exact ⟨hr, hpc.le⟩
  · exact ⟨hr, hpc.le⟩

/-- A PUSHn without its operand moves `pc` past the opcode byte and nothing else (R85). -/
theorem exec_push_none {op : OpCode} (hn : op.immBytes ≠ 0) (s : State) :
    exec (op.instr none) s = .next (s.advance 1 s.stack) := by
  cases op with
  | push1 | push2 | push4 | push6 | push10 | push11 | push32 => rfl
  | _ => exact absurd rfl hn

/-- With fewer than `n` bytes after the opcode byte the operand taken is none (R62). -/
theorem takeOperand_bytes_truncated {op : OpCode} {s : State} (hn : op.immBytes ≠ 0)
    (hlen : s.mem.len < s.pc + 1 + op.immBytes) :
    (takeOperand op (s.mem.bytes (s.pc + 1) (min (Config.maxInstrBytes - 1) (s.mem.len - (s.pc + 1))))).1 =
      op.instr none := by
  have hshort : ¬ op.immBytes ≤ min (Config.maxInstrBytes - 1) (s.mem.len - (s.pc + 1)) := by
    rw [le_min_iff]
    omega
  simp [takeOperand, hn, hshort]

/-- Settles O11: the step is the PUSHn without its operand. -/
theorem truncatedPushSkipsOpcodeByte : Obligations.TruncatedPushSkipsOpcodeByte := by
  intro s b op hr hb hd hn hlen
  rw [step_of_decodeByte hr hb hd, takeOperand_bytes_truncated hn hlen, exec_push_none hn]
  rfl

/-- An instruction that leaves the machine Running moves `pc` forward. -/
theorem exec_pc_lt {i : Instr} {s t : State} (h : exec i s = .next t) (hr : t.run = .running) : s.pc < t.pc := by
  obtain ⟨-, rfl⟩ | ⟨-, rfl⟩ | ⟨-, rest, ops, pushed, -, -, -, rfl⟩ := exec_cases h
  · simp at hr
  · simp at hr
  · exact Nat.lt_add_of_pos_right (one_le_size i)

/-- A step that leaves the machine Running moves `pc` forward, if truncated PUSHn do not stay put. -/
theorem stepWith_pc_lt {p : Config.Params} (hp : p.truncPush = .opcodeOnly) {s t : State} (h : stepWith p s = .next t)
    (hr : t.run = .running) : s.pc < t.pc := by
  obtain ⟨-, ⟨-, rfl⟩ | ⟨-, -, rfl⟩ | ⟨-, i, -, -, he, -⟩⟩ := stepWith_cases h
  · simp at hr
  · simp at hr
  · rw [hp, execWith_opcodeOnly] at he
    exact exec_pc_lt he hr

/-- Settles O17: the default parameters move past a truncated PUSHn, and every step stays within the code. -/
theorem pcAdvancesWithinCode : Obligations.PcAdvancesWithinCode := fun _ _ h hr =>
  ⟨stepWith_pc_lt defaultParams_truncPush h hr, step_pcWithinCode h (by simp [hr])⟩

/-- The instruction does not depend on bytes beyond the longest one's 33 (R60). -/
theorem takeOperand_take_fst (op : OpCode) (tail : List Byte) :
    (takeOperand op (tail.take (Config.maxInstrBytes - 1))).1 = (takeOperand op tail).1 := by
  have hle : op.immBytes ≤ Config.maxInstrBytes - 1 := op.immBytes_le
  unfold takeOperand
  split
  · rfl
  · simp only [List.length_take, le_min_iff, hle, true_and, List.take_take, Nat.min_eq_left hle]
    split <;> rfl

/-- The bytes up to the end of the code decode to what the window at `pc` holds: the step performs it. -/
theorem stepWith_of_decodeWith {p : Config.Params} {s : State} {i : Instr} {rest : List Byte} (hr : s.run = .running)
    (hpc : s.pc < s.mem.len) (h : decodeWith p.opmap (s.mem.bytes s.pc (s.mem.len - s.pc)) = .ok (i, rest)) :
    WellFormed i = true ∧ stepWith p s = withinSizes p.sizes (execWith p.truncPush i s) := by
  have hlen : s.mem.len - s.pc = s.mem.len - (s.pc + 1) + 1 := by omega
  obtain ⟨b, tail, op, hbs, hd, hop⟩ := decodeWith_eq_ok_iff.mp h
  rw [hlen, Memory.bytes_succ] at hbs
  obtain ⟨rfl, rfl⟩ := List.cons.inj hbs
  obtain ⟨-, hw, -⟩ := takeOperand_spec hop
  have hfst := takeOperand_take_fst op (s.mem.bytes (s.pc + 1) (s.mem.len - (s.pc + 1)))
  rw [hop, Memory.bytes, ← List.map_take, List.take_range, ← Memory.bytes] at hfst
  rw [stepWith_fetch hr hpc, hd]
  exact ⟨hw, by simp [hfst]⟩

/-- Settles O5: the machine's own step is the one under the default parameters. -/
theorem stepRunsDecodedInstruction : Obligations.StepRunsDecodedInstruction := by
  refine ⟨fun s i rest hr hpc h => ?_, fun p s i rest => stepWith_of_decodeWith, execWith_opcodeOnly⟩
  simpa [step] using stepWith_of_decodeWith (p := defaultParams) hr hpc h

/-- Settles O7: the abort replaces the stack by a free value, so the stack before it does not matter. -/
theorem stepAbortsOnUnrecognizedByte : Obligations.StepAbortsOnUnrecognizedByte := by
  have habort (s : State) (b : Byte) (hr : s.run = .running) (hb : s.mem.read? s.pc = some b)
      (hd : decodeByte b = none) : step s = .next (s.raiseUnrecognized b) := by
    obtain ⟨hlt, rfl⟩ := Memory.read?_eq_some.mp hb
    rw [step_fetch hr hlt, hd]
  refine ⟨fun s b hr hb hd => ?_, ?_⟩
  · exact ⟨s.raiseUnrecognized b, fun S => habort { s with stack := S } b hr hb hd, ⟨rfl, rfl⟩, rfl⟩
  · have hfetch := habort (State.resetWith [0xFF]) 0xFF rfl (by simp) (by decide)
    exact execute_failure_of_step_aborted hfetch rfl

end Sys2Proof.Machine

/-! ### What each instruction does (40_stack.md, 41_arithmetic_unsigned.md, 60_exceptions.md) -/

namespace Sys2Proof.Machine

/-- Settles O19: of the three things `exec` can do, a completed instruction leaves `run` alone. -/
theorem everyInstructionAnswersNext : Obligations.EveryInstructionAnswersNext := by
  intro i s
  obtain ⟨t, he⟩ := exec_next i s
  refine ⟨t, he, ?_⟩
  obtain ⟨-, rfl⟩ | ⟨-, rfl⟩ | ⟨-, _, _, _, -, -, -, rfl⟩ := exec_cases he
  · exact .inr (.inl (State.halt_run s))
  · exact .inr (.inr (State.raiseUnderflow_run ..))
  · exact .inl (State.advance_run ..)

/-- The bytes of an instruction are as many as its size, under every proper map (30_encoding.md R60). -/
theorem length_encodeWith {m : Config.OpMap} (hm : m.Proper) (i : Instr) : (encodeWith m i).length = i.size := by
  obtain ⟨b, -, he⟩ := exists_encodeWith_eq_cons hm i
  rw [he, Instr.immBytes, Instr.size]
  cases i.imm with
  | none => rfl
  | some w => simp [Nat.add_comm]

/-- The "pushes" column: STOP, POP and a truncated PUSHn push nothing, all others one Word (R63). -/
theorem pushes_eq (i : Instr) :
    i.pushes = if i = .stop ∨ i = .pop ∨ (i.opcode.immBytes ≠ 0 ∧ i.imm = none) then 0 else 1 := by
  cases i with
  | push1 imm | push2 imm | push4 imm | push6 imm | push10 imm | push11 imm | push32 imm =>
    cases imm <;> simp [Instr.pushes, Instr.opcode, OpCode.immBytes, Instr.imm]
  | _ => simp [Instr.pushes, Instr.opcode, OpCode.immBytes]

/-- Settles O20: an instruction that does not abort is STOP, or it takes its operands and advances by its size. -/
theorem frameOfCompletedInstruction : Obligations.FrameOfCompletedInstruction := by
  intro i s t hr he ha
  have hmem := exec_mem he
  refine ⟨by rw [hmem], fun a => by rw [hmem], ?_⟩
  obtain ⟨rfl, rfl⟩ | ⟨-, rfl⟩ | ⟨hi, rest, ops, pushed, hs, ho, hp, rfl⟩ := exec_cases he
  · have hpops : Instr.stop.opcode.pops = 0 := rfl
    exact ⟨rfl, rfl, rfl, by simp, fun _ => rfl, by simp, by simp [hpops], [], by simp [hpops], by simp⟩
  · exact absurd (State.raiseUnderflow_run ..) ha
  · have hlen : (encode i).length = i.size := length_encodeWith opmap_isProper i
    refine ⟨rfl, rfl, rfl, by simp [hr, hi], fun h => absurd h hi, fun _ => by simp [hlen], ?_, pushed, ?_, ?_⟩
    · simp [hs, ho]
    · simp [hs, ho]
    · rw [hp, pushes_eq]

/-- Settles O23: with too few operands the instruction raises `StackUnderflow`, which records OpCode and `pc`. -/
theorem underflowRecordsOpcodeAndPc : Obligations.UnderflowRecordsOpcodeAndPc := by
  intro i s hl
  have hi : i ≠ .stop := by
    rintro rfl
    exact absurd hl (Nat.not_lt_zero _)
  obtain ⟨f, -, hs⟩ := exec_shape i hi
  exact ⟨s.raiseUnderflow i.opcode, hs.next_of_underflow hl, rfl, rfl⟩

/-- Pushing Words one by one appends them. -/
theorem foldl_push (rest ws : List Word) : ws.foldl (fun S w => push w S) rest = rest ++ ws := by
  induction ws generalizing rest with
  | nil => simp
  | cons w ws ih => rw [List.foldl_cons, ih, push, List.append_assoc, List.singleton_append]

/-- Settles O24: the Words `popN` returned, in reverse order, are the top of the stack it was given. -/
theorem popNReturnsMostRecentFirst : Obligations.PopNReturnsMostRecentFirst := by
  refine ⟨fun _ _ => rfl, fun _ _ => popN_eq_none, popN_append, fun n S ops rest h => ?_⟩
  have hle : n ≤ S.length := by
    by_contra hlt
    simp [popN_eq_none.mpr (Nat.not_le.mp hlt)] at h
  rw [popN_of_le hle] at h
  obtain ⟨rfl, rfl⟩ := Prod.mk.inj (Option.some.inj h)
  rw [foldl_push, List.reverse_reverse, List.take_append_drop]

/-- Settles O25: STOP is of format `O`, so its step is its meaning, whatever bytes follow. -/
theorem stopHaltsAndChangesNothingElse : Obligations.StopHaltsAndChangesNothingElse :=
  ⟨exec_stop, fun s _ hr hb hd => (step_of_formatO hr hb hd rfl).trans (exec_stop s)⟩

/-- Settles O28: one law for all widths of the full form, one for all truncated forms. -/
theorem pushnPushesItsImmediate : Obligations.PushnPushesItsImmediate := by
  intro s w
  have hfull (op : OpCode) (hn : op.immBytes ≠ 0) := exec_push_some hn w s
  have htrunc (op : OpCode) (hn : op.immBytes ≠ 0) := exec_push_none hn s
  refine ⟨hfull .push1 (by decide), hfull .push2 (by decide), hfull .push4 (by decide), hfull .push6 (by decide),
    hfull .push10 (by decide), hfull .push11 (by decide), hfull .push32 (by decide), ?_⟩
  simp only [List.forall_mem_cons]
  exact ⟨htrunc .push1 (by decide), htrunc .push2 (by decide), htrunc .push4 (by decide), htrunc .push6 (by decide),
    htrunc .push10 (by decide), htrunc .push11 (by decide), htrunc .push32 (by decide), List.forall_mem_nil _⟩

/-- Settles O1: the decoder runs on the ten words. -/
theorem sampleWordsDecode : Obligations.SampleWordsDecode := by
  unfold Obligations.SampleWordsDecode
  decide

/-- A byte is refused exactly when the map has no OpCode for it. -/
theorem decode_cons_eq_unrecognized_iff (b : Byte) (rest : List Byte) :
    decode (b :: rest) = .error (.unrecognized b) ↔ b ∉ opmap.map Prod.fst := by
  have hlookup : decodeByteWith opmap b = none ↔ b ∉ opmap.map Prod.fst := by
    rw [decodeByteWith, List.lookup_eq_none_iff, List.mem_map]
    constructor
    · rintro h ⟨r, hr, rfl⟩
      simpa using h r hr
    · exact fun h r hr => bne_iff_ne.mpr fun heq => h ⟨r, hr, heq.symm⟩
  rw [← hlookup, decode, decodeWith_cons]
  cases decodeByteWith opmap b <;> simp

/-- Settles O2: the listed values are those between the 25 bytes of the default map. -/
theorem unrecognizedBytesAreTheListedOnes : Obligations.UnrecognizedBytesAreTheListedOnes := by
  intro b rest
  have hlt : b.toNat < 256 := b.isLt
  rw [decode_cons_eq_unrecognized_iff]
  simp only [opmap, List.map_cons, List.map_nil, List.mem_cons, List.not_mem_nil, or_false, not_or, BitVec.toNat_eq,
    BitVec.reduceToNat]
  omega

/-- The three-operand form of `binary_pushes_or_underflows`. -/
theorem ternary_pushes_or_underflows (op : OpCode) {f : Word → Word → Word → Word}
    {P : Word → Word → Word → Word → Prop} (hf : ∀ a b n, P a b n (f a b n)) :
    (∀ (s : State) (rest : List Word) (a b n : Word), s.stack = rest ++ [n, b, a] →
      ∃ w : Word, ternary op f s = .next { s with stack := rest ++ [w], pc := s.pc + 1 } ∧ P a b n w) ∧
    ∀ s : State, s.stack.length < 3 →
      ∃ t, ternary op f s = .next t ∧ t.AbortedBy .stackUnderflow ∧ t.mem = s.mem :=
  ⟨fun _ _ a b n hs => ⟨f a b n, ternary_append op f hs, hf a b n⟩, fun s hl =>
    ⟨s.raiseUnderflow op, ternary_underflow op f hl, ⟨rfl, rfl⟩, rfl⟩⟩

/-- A remainder by a nonzero Word is smaller than it, so a Word holds it. -/
theorem toNat_ofNat_mod (v : Nat) {n : Word} (hn : n ≠ 0) : (BitVec.ofNat 256 (v % n.toNat)).toNat = v % n.toNat := by
  have hpos : 0 < n.toNat := Nat.pos_of_ne_zero fun h => hn (BitVec.eq_of_toNat_eq h)
  rw [BitVec.toNat_ofNat]
  exact Nat.mod_eq_of_lt ((Nat.mod_lt v hpos).trans n.isLt)

/-- For a nonzero modulus the exact sum is reduced once (R106; D6). -/
theorem addmodWord_toNat {n : Word} (hn : n ≠ 0) (a b : Word) :
    (addmodWord a b n).toNat = (a.toNat + b.toNat) % n.toNat := by
  rw [addmodWord, if_neg hn, toNat_ofNat_mod _ hn]

/-- For a nonzero modulus the exact product is reduced once (R107; D6). -/
theorem mulmodWord_toNat {n : Word} (hn : n ≠ 0) (a b : Word) :
    (mulmodWord a b n).toNat = a.toNat * b.toNat % n.toNat := by
  rw [mulmodWord, if_neg hn, toNat_ofNat_mod _ hn]

/-- Settles O34: ADDMOD pushes `addmodWord`, which is 0 or the remainder of the exact sum. -/
theorem addmodReducesExactSum : Obligations.AddmodReducesExactSum :=
  ternary_pushes_or_underflows .addmod fun a b _ =>
    ⟨fun hn => hn ▸ addmodWord_zero a b, fun hn => addmodWord_toNat hn a b⟩

/-- Settles O35: MULMOD pushes `mulmodWord`, which is 0 or the remainder of the exact product. -/
theorem mulmodReducesExactProduct : Obligations.MulmodReducesExactProduct :=
  ternary_pushes_or_underflows .mulmod fun a b _ =>
    ⟨fun hn => hn ▸ mulmodWord_zero a b, fun hn => mulmodWord_toNat hn a b⟩

end Sys2Proof.Machine

/-! ### EXP: the square-and-multiply loop (41_arithmetic_unsigned.md R108) -/

namespace Sys2Proof.Machine

/-- The loop keeps `r * base ^ e` modulo `2^256`, and it ends with `e = 0` if it may run once for each bit of `e`. -/
theorem expLoop_mod {fuel e : Nat} (r base : Nat) (he : e < 2 ^ fuel) :
    expLoop fuel r base e % modulus = r * base ^ e % modulus := by
  induction fuel generalizing r base e with
  | zero =>
    obtain rfl : e = 0 := by simpa using he
    simp [expLoop]
  | succ fuel ih =>
    unfold expLoop
    by_cases h0 : e = 0
    · simp [h0]
    · have hhalf : e / 2 < 2 ^ fuel := by omega
      have hsquare : (base * base) ^ (e / 2) = base ^ (2 * (e / 2)) := by rw [← pow_two, ← pow_mul]
      rw [if_neg h0, ih _ _ hhalf, Nat.mul_mod, ← Nat.pow_mod, ← Nat.mul_mod, hsquare]
      by_cases hodd : e % 2 = 1
      · calc (if e % 2 = 1 then r * base % modulus else r) * base ^ (2 * (e / 2)) % modulus
          _ = r * base * base ^ (2 * (e / 2)) % modulus := by rw [if_pos hodd, Nat.mod_mul_mod]
          _ = r * base ^ (2 * (e / 2) + 1) % modulus := by rw [pow_succ', ← mul_assoc]
          _ = r * base ^ e % modulus := by rw [← hodd, Nat.div_add_mod]
      · have heven : 2 * (e / 2) = e := by omega
        rw [if_neg hodd, heven]

/-- 256 rounds are enough for every exponent: the result is the power modulo `2^256` (R108). -/
theorem expWord_toNat (a b : Word) : (expWord a b).toNat = a.toNat ^ b.toNat % 2 ^ 256 := by
  have hloop := expLoop_mod 1 a.toNat b.isLt
  rw [Nat.one_mul] at hloop
  rw [expWord, BitVec.toNat_ofNat]
  exact hloop

/-- Settles O36: EXP pushes `expWord`, which is the power modulo `2^256`. -/
theorem expPushesPowerModulo : Obligations.ExpPushesPowerModulo :=
  binary_pushes_or_underflows .exp expWord_toNat

end Sys2Proof.Machine

/-! ### The signed unit (42_arithmetic_signed.md): the model's operations are the library's on bit vectors -/

namespace Sys2Proof.Machine

/-- The sign flag is the most significant bit (00_scope.md R10). -/
theorem isNeg_eq_msb (w : Word) : isNeg w = w.msb := by
  rw [isNeg_eq, BitVec.msb_eq_decide]

theorem toS_nonneg_of_not_isNeg {w : Word} (h : isNeg w = false) : 0 ≤ toS w := by
  rw [toS_of_not_isNeg h]
  exact Int.natCast_nonneg _

/-- The magnitude is the absolute value of the signed view (R121). -/
theorem mag_toNat (x : Word) : (mag x).toNat = (toS x).natAbs := by
  unfold mag
  cases h : isNeg x with
  | true =>
    have hneg := toS_neg_of_isNeg h
    have hval := negate_toNat_of_isNeg h
    rw [if_pos rfl]
    omega
  | false => simp [toS_of_not_isNeg h]

/-- No magnitude exceeds that of `MINS`. -/
theorem natAbs_toS_le (x : Word) : (toS x).natAbs ≤ 2 ^ 255 := by
  have hlt := x.isLt
  rcases Nat.lt_or_ge x.toNat (2 ^ 255) with h | h
  · rw [toS_of_lt h]
    omega
  · rw [toS_of_ge h]
    omega

/-- Settles O41: by the sign of the Word; `negate` is the library's negation, exact but for its least value. -/
theorem magIsAbsoluteSignedValue : Obligations.MagIsAbsoluteSignedValue := by
  refine fun x => ⟨mag_toNat x, (mag_toNat x).trans_le (natAbs_toS_le x),
    ⟨toS_neg_of_isNeg, fun hlt => ?_⟩, fun hx => ?_⟩
  · by_contra hn
    exact absurd (toS_nonneg_of_not_isNeg (Bool.eq_false_iff.mpr hn)) (Int.not_le.mpr hlt)
  · rw [negate_eq_neg, toS_eq_toInt, toS_eq_toInt]
    exact BitVec.toInt_neg_of_ne_intMin hx

/-- The pseudocode of R122 is the library's signed division. -/
theorem sdivWord_eq_sdiv {b : Word} (hb : b ≠ 0) (a : Word) : sdivWord a b = a.sdiv b := by
  rw [sdivWord, if_neg hb, BitVec.sdiv_eq]
  simp only [mag, isNeg_eq_msb, ← BitVec.udiv_def, negate_eq_neg]
  cases a.msb <;> cases b.msb <;> rfl

/-- The pseudocode of R123 is the library's signed remainder. -/
theorem smodWord_eq_srem {b : Word} (hb : b ≠ 0) (a : Word) : smodWord a b = a.srem b := by
  rw [smodWord, if_neg hb, BitVec.srem_eq]
  simp only [mag, isNeg_eq_msb, ← BitVec.umod_def, negate_eq_neg]
  cases a.msb <;> cases b.msb <;> rfl

/-- A Word by its signed view: the representative modulo `2^256` (00_scope.md R10). -/
theorem toNat_eq_toS_emod (w : Word) : (w.toNat : Int) = toS w % 2 ^ 256 := by
  have hlt := w.isLt
  unfold toS
  split <;> omega

/-- SDIV in the signed view: truncated toward zero, reduced modulo `2^256` (R122). -/
theorem sdivWord_toNat {b : Word} (hb : b ≠ 0) (a : Word) :
    ((sdivWord a b).toNat : Int) = (toS a).tdiv (toS b) % 2 ^ 256 := by
  have hbmod : toS (a.sdiv b) = ((toS a).tdiv (toS b)).bmod (2 ^ 256) := by
    simp only [toS_eq_toInt, BitVec.toInt_sdiv]
  rw [sdivWord_eq_sdiv hb, toNat_eq_toS_emod, hbmod]
  exact Int.bmod_emod

/-- SMOD in the signed view: the truncated remainder, which no Word overflows (R123). -/
theorem toS_smodWord {b : Word} (hb : b ≠ 0) (a : Word) : toS (smodWord a b) = (toS a).tmod (toS b) := by
  simp only [smodWord_eq_srem hb, toS_eq_toInt, BitVec.toInt_srem]

/-- The truncated remainder is that of the magnitudes with the sign of the dividend. -/
theorem tmod_eq_sign_mul (a b : Int) : a.tmod b = a.sign * (a.natAbs % b.natAbs : Nat) := by
  have hnat (n : Nat) : (n : Int).tmod b = (n : Int).sign * (n % b.natAbs : Nat) := by
    rcases Nat.eq_zero_or_pos n with rfl | hn
    · simp
    · rw [Int.tmod_eq_emod_of_nonneg (Int.natCast_nonneg n), Int.sign_natCast_of_ne_zero hn.ne', Int.one_mul,
        Int.natCast_emod, Int.natCast_natAbs, Int.emod_abs]
  obtain ⟨n, rfl | rfl⟩ := a.eq_nat_or_neg
  · exact hnat n
  · rw [Int.neg_tmod, hnat, Int.sign_neg, Int.natAbs_neg, Int.natAbs_natCast, Int.neg_mul]

/-- Settles O42: SDIV pushes `sdivWord`, which is 0 or the truncated quotient modulo `2^256`. -/
theorem sdivTruncatesTowardZero : Obligations.SdivTruncatesTowardZero :=
  binary_pushes_or_underflows .sdiv fun a _ => ⟨fun hb => hb ▸ sdivWord_zero a, fun hb => sdivWord_toNat hb a⟩

/-- Settles O43: SMOD pushes `smodWord`, which is 0 or the truncated remainder, and that completes the quotient. -/
theorem smodTakesSignOfDividend : Obligations.SmodTakesSignOfDividend :=
  binary_pushes_or_underflows .smod fun a b => by
    refine ⟨fun hb => hb ▸ smodWord_zero a, fun hb => ?_⟩
    rw [toS_smodWord hb]
    exact ⟨tmod_eq_sign_mul _ _, (Int.tdiv_mul_add_tmod _ _).symm⟩

/-- Settles O48: SLT pushes `sltWord`, whose four cases are the signed order. -/
theorem sltComparesSigned : Obligations.SltComparesSigned :=
  binary_replaces_or_underflows .slt sltWord_eq

/-- Settles O49: SGT pushes `sgtWord`, whose four cases are the reverse of the signed order. -/
theorem sgtComparesSigned : Obligations.SgtComparesSigned :=
  binary_replaces_or_underflows .sgt sgtWord_eq

/-- The two orders agree on Words of the same sign and contradict each other on all others. -/
theorem lt_iff_toS_lt_iff_isNeg_eq (a b : Word) :
    (a.toNat < b.toNat ↔ toS a < toS b) ↔ isNeg a = isNeg b := by
  have ha := a.isLt
  have hb := b.isLt
  simp only [toS, isNeg_eq, decide_eq_decide]
  split <;> split <;> omega

/-- LT and SLT push the same Word exactly on operands of the same sign (44_comparison.md R146). -/
theorem ltWord_eq_sltWord_iff (a b : Word) : ltWord a b = sltWord a b ↔ isNeg a = isNeg b := by
  rw [← lt_iff_toS_lt_iff_isNeg_eq, ltWord_eq, sltWord_eq]
  by_cases h : a.toNat < b.toNat <;> by_cases h' : toS a < toS b <;> simp [h, h']

/-- Settles O51: GT and SGT are LT and SLT on the exchanged operands. -/
theorem signedAndUnsignedComparisonAgree : Obligations.SignedAndUnsignedComparisonAgree := by
  intro a b
  have hgt : gtWord a b = ltWord b a := rfl
  rw [hgt, sgtWord_eq_sltWord_swap, ltWord_eq_sltWord_iff, ltWord_eq_sltWord_iff]
  exact ⟨Iff.rfl, eq_comm⟩

end Sys2Proof.Machine

/-! ### The sign-extension unit (43_sign_extend.md R130) -/

namespace Sys2Proof.Machine

/-! A Word by its bytes -/

/-- A bit of a byte is a bit of the Word (00_scope.md R9). -/
theorem getLsbD_byteOf (w : Word) (j i : Nat) : (byteOf w j).getLsbD i = (decide (i < 8) && w.getLsbD (8 * j + i)) := by
  have hbyte : byteOf w j = w.extractLsb' (8 * j) 8 := by
    apply BitVec.eq_of_toNat_eq
    rw [byteOf_toNat, BitVec.extractLsb'_toNat, Nat.shiftRight_eq_div_pow]
  rw [hbyte, BitVec.getLsbD_extractLsb']

/-- Each bit of a Word lies in one byte. -/
theorem getLsbD_eq_byteOf (w : Word) (i : Nat) : w.getLsbD i = (byteOf w (i / 8)).getLsbD (i % 8) := by
  have hmod : i % 8 < 8 := Nat.mod_lt _ (by decide)
  rw [getLsbD_byteOf, decide_eq_true hmod, Bool.true_and, Nat.div_add_mod]

/-- A Word is its 32 bytes. -/
theorem word_ext_byteOf {x y : Word} (h : ∀ j ≤ 31, byteOf x j = byteOf y j) : x = y := by
  apply BitVec.eq_of_getLsbD_eq
  intro i hi
  rw [getLsbD_eq_byteOf x, getLsbD_eq_byteOf y, h (i / 8) (by omega)]

/-- The bytes of a number, the most significant first, by their index. -/
theorem beBytes_eq_map (n v : Nat) :
    beBytes n v = (List.range n).reverse.map fun j => BitVec.ofNat 8 (v / 256 ^ j) := by
  induction n with
  | zero => rfl
  | succ n ih => simp [beBytes, ih, List.range_succ]

/-- A Word put together from 32 bytes has these bytes. -/
theorem byteOf_ofNat_beNat (f : Nat → Byte) {j : Nat} (hj : j ≤ 31) :
    byteOf (BitVec.ofNat 256 (beNat ((List.range 32).reverse.map f))) j = f j := by
  have hlen : ((List.range 32).reverse.map f).length = 32 := by simp
  have hback := beBytes_beNat ((List.range 32).reverse.map f)
  rw [hlen, beBytes_eq_map, List.map_inj_left] at hback
  rw [← hback j (by simp; omega)]
  apply BitVec.eq_of_toNat_eq
  rw [byteOf_toNat, toNat_ofNat_beNat hlen.le, BitVec.toNat_ofNat, pow_mul]
  rfl

/-! SIGNEXTEND byte by byte -/

/-- The byte above index `k`: the high bit of byte `k`, eight times (R130). -/
def signByte (k x : Word) : Byte := if 0x7F < (byteOf x k.toNat).toNat then 0xFF else 0x00

/-- `k` beyond the last byte leaves the Word (D15). -/
theorem signextendWord_of_gt {k : Word} (hk : 31 < k.toNat) (x : Word) : signextendWord k x = x := if_pos hk

/-- The bytes up to index `k` stay, those above are the sign byte (R130). -/
theorem byteOf_signextendWord {k : Word} (hk : k.toNat ≤ 31) (x : Word) {j : Nat} (hj : j ≤ 31) :
    byteOf (signextendWord k x) j = if j ≤ k.toNat then byteOf x j else signByte k x := by
  rw [signextendWord, if_neg (Nat.not_lt.mpr hk)]
  exact byteOf_ofNat_beNat _ hj

/-- At the last byte there is none above it. -/
theorem signextendWord_of_ge {k : Word} (hk : 31 ≤ k.toNat) (x : Word) : signextendWord k x = x := by
  rcases hk.eq_or_lt with heq | hlt
  · refine word_ext_byteOf fun j hj => ?_
    rw [byteOf_signextendWord heq.ge x hj, if_pos (heq ▸ hj)]
  · exact signextendWord_of_gt hlt x

/-- Byte `k` stays, so the second extension finds the same sign. -/
theorem signextendWord_idem (k x : Word) : signextendWord k (signextendWord k x) = signextendWord k x := by
  rcases Nat.lt_or_ge 31 k.toNat with hk | hk
  · rw [signextendWord_of_gt hk, signextendWord_of_gt hk]
  · have hsign : signByte k (signextendWord k x) = signByte k x := by
      rw [signByte, byteOf_signextendWord hk x hk, if_pos le_rfl, signByte]
    refine word_ext_byteOf fun j hj => ?_
    rw [byteOf_signextendWord hk _ hj, byteOf_signextendWord hk x hj, hsign]
    split <;> rfl

/-- Settles O44: SIGNEXTEND pushes `signextendWord`, whose bytes are those of `x` or the sign byte. -/
theorem signextendRewritesBytesAboveK : Obligations.SignextendRewritesBytesAboveK :=
  binary_pushes_or_underflows .signextend fun _ x =>
    ⟨fun hk => signextendWord_of_gt hk x, fun hk _ hj => byteOf_signextendWord hk x hj⟩

/-! SIGNEXTEND as arithmetic -/

/-- Every bit of the sign byte is the highest of the `8k + 8` bits that are kept. -/
theorem getLsbD_signByte (k x : Word) {i : Nat} (hi : i < 8) :
    (signByte k x).getLsbD i = x.getLsbD (8 * k.toNat + 7) := by
  have hhigh : x.getLsbD (8 * k.toNat + 7) = decide (0x7F < (byteOf x k.toNat).toNat) :=
    calc x.getLsbD (8 * k.toNat + 7)
      _ = (byteOf x k.toNat).getLsbD 7 := (getLsbD_byteOf x k.toNat 7).symm
      _ = (byteOf x k.toNat).msb := (BitVec.msb_eq_getLsbD_last _).symm
      _ = decide (0x7F < (byteOf x k.toNat).toNat) := BitVec.msb_eq_decide _
  have hones : (0xFF : Byte) = BitVec.allOnes 8 := rfl
  rw [hhigh, signByte]
  split
  next h => rw [decide_eq_true h, hones, BitVec.getLsbD_allOnes, decide_eq_true hi]
  next h => rw [decide_eq_false h, BitVec.ofNat_eq_ofNat, BitVec.getLsbD_zero]

/-- For `k ≤ 31` the result is the library's sign extension of the low `8k + 8` bits. -/
theorem signextendWord_eq_signExtend {k : Word} (hk : k.toNat ≤ 31) (x : Word) :
    signextendWord k x = (x.setWidth (8 * k.toNat + 8)).signExtend 256 := by
  apply BitVec.eq_of_getLsbD_eq
  intro i hi
  have hmod : i % 8 < 8 := Nat.mod_lt _ (by decide)
  rw [getLsbD_eq_byteOf, byteOf_signextendWord hk x (by omega), BitVec.getLsbD_signExtend]
  by_cases hlow : i / 8 ≤ k.toNat
  · have hi' : i < 8 * k.toNat + 8 := by omega
    rw [if_pos hlow, ← getLsbD_eq_byteOf]
    simp [hi, hi']
  · have hi' : ¬ i < 8 * k.toNat + 8 := by omega
    rw [if_neg hlow, getLsbD_signByte k x hmod]
    simp [hi, hi', BitVec.msb_setWidth]

/-- The value of the sign extension of the low `n` bits (R130, derived). -/
theorem toNat_signExtend_setWidth (x : Word) {n : Nat} (hn : n + 1 ≤ 256) :
    ((x.setWidth (n + 1)).signExtend 256).toNat =
      if x.toNat % 2 ^ (n + 1) < 2 ^ n then x.toNat % 2 ^ (n + 1)
      else x.toNat % 2 ^ (n + 1) + 2 ^ 256 - 2 ^ (n + 1) := by
  have hle : 2 ^ (n + 1) ≤ 2 ^ 256 := Nat.pow_le_pow_right (by decide) hn
  have hlow : x.toNat % 2 ^ (n + 1) < 2 ^ 256 := (Nat.mod_lt _ (by positivity)).trans_le hle
  rw [BitVec.toNat_signExtend, BitVec.toNat_setWidth, BitVec.toNat_setWidth, BitVec.msb_eq_decide,
    BitVec.toNat_setWidth, Nat.mod_eq_of_lt hlow, Nat.add_sub_assoc hle, Nat.add_sub_cancel]
  by_cases hsign : x.toNat % 2 ^ (n + 1) < 2 ^ n
  · simp [hsign, Nat.not_le.mpr hsign]
  · simp [hsign, Nat.not_lt.mp hsign]

/-- Settles O45: the arithmetic form is the library's sign extension; the other two are seen on the bytes. -/
theorem signextendKeepsLowBitsSigned : Obligations.SignextendKeepsLowBitsSigned := by
  refine fun k x => ⟨fun hk => ?_, fun hk => signextendWord_of_ge hk x, signextendWord_idem k x⟩
  rw [signextendWord_eq_signExtend hk]
  exact toNat_signExtend_setWidth x (by omega)

end Sys2Proof.Machine

/-! ### Sizes that meet the constraints (00_scope.md R7; 92_eei_decisions.md D3, D4) -/

namespace Sys2Proof.Machine

section ValidSizes
variable {p : Config.Params} {z : Config.Sizes} {s : State}

/-- A state with the machine invariant, over code of at most `CODE_MAX` bytes, fits sizes that meet R7. -/
theorem State.Inv.fits (h : s.Inv) (hz : z.Valid) (hlen : s.mem.len ≤ z.codeMax) (ha : s.run ≠ .aborted) :
    s.fits z = true := by
  have hpc := h.pc_le ha
  have hdepth := h.depth_le ha
  obtain ⟨hpcw, hslots⟩ := hz
  have hwidth : s.pc < 2 ^ z.pcw := by omega
  have hstack : s.stack.length ≤ z.stackDepth := by omega
  simp [State.fits, hwidth, hstack]

/-- A next state of the unbounded implementation that fits the sizes is the next state under the sizes. -/
theorem stepWith_of_unbounded_next {t : State} (h : stepWith { p with sizes := none } s = .next t)
    (hfits : ∀ z, p.sizes = some z → t.run ≠ .aborted → t.fits z = true) : stepWith p s = .next t := by
  obtain ⟨hr, ⟨hpc, rfl⟩ | ⟨hpc, hd, rfl⟩ | ⟨hpc, -⟩⟩ := stepWith_cases h
  · exact stepWith_endOfCode hr hpc
  · rw [stepWith_fetch hr hpc, hd]
  · rw [stepWith_fetch hr hpc] at h ⊢
    cases hd : decodeByteWith p.opmap (s.mem.byteAt s.pc) with
    | none => simpa [hd] using h
    | some op =>
      simp only [hd, withinSizes_none] at h ⊢
      rw [h, withinSizes_of_fits hfits]

/-- In a terminal state the step stops alike under all parameters. -/
theorem stepWith_of_not_running (q : Config.Params) (hr : s.run ≠ .running) : stepWith p s = stepWith q s := by
  unfold stepWith
  cases h : s.run with
  | running => exact absurd h hr
  | halted => rfl
  | aborted => rfl

/-- What an execution of an accepted bytecode keeps: the machine invariant, and code of at most `CODE_MAX` bytes. -/
def State.InvWithin (z : Config.Sizes) (s : State) : Prop := s.Inv ∧ s.mem.len ≤ z.codeMax

theorem State.invWithin_resetWith {code : List Byte} (h : code.length ≤ z.codeMax) :
    (State.resetWith code).InvWithin z :=
  ⟨State.resetWith_inv code, (Memory.ofBytes_len code).trans_le h⟩

theorem stepWith_invWithin {t : State} (h : s.InvWithin z) (hstep : stepWith p s = .next t) : t.InvWithin z := by
  obtain ⟨hinv, hlen⟩ := h
  exact ⟨stepWith_inv hinv hstep, by rwa [stepWith_mem hstep]⟩

/-- Sizes that meet R7 do not change the step. -/
theorem stepWith_eq_unbounded (hp : p.sizes = some z) (hz : z.Valid) (h : s.InvWithin z) :
    stepWith p s = stepWith { p with sizes := none } s := by
  by_cases hr : s.run = .running
  · have ⟨hs, _⟩ := h
    obtain ⟨t, ht⟩ := exists_stepWith (p := { p with sizes := none }) rfl hr (hs.pc_le (by simp [hr]))
    obtain ⟨hinv, hlen⟩ := stepWith_invWithin h ht
    rw [ht]
    refine stepWith_of_unbounded_next ht fun y hy ha => ?_
    obtain rfl := Option.some.inj (hp.symm.trans hy)
    exact hinv.fits hz hlen ha
  · exact stepWith_of_not_running _ hr

/-- Two loops whose steps agree on what the first one keeps are equal. -/
theorem loopWith_congr {q : Config.Params} {P : State → Prop} (hkeep : ∀ s t, P s → stepWith p s = .next t → P t)
    (heq : ∀ s, P s → stepWith p s = stepWith q s) (k : Nat) (h : P s) : loopWith p k s = loopWith q k s := by
  induction k generalizing s with
  | zero => rfl
  | succ k ih =>
    by_cases hs : ∃ t, stepWith p s = .next t
    · obtain ⟨t, ht⟩ := hs
      rw [loopWith_succ_of_step ht, loopWith_succ_of_step ((heq s h).symm.trans ht)]
      exact ih (hkeep s t h ht)
    · rw [loopWith_of_no_step fun t ht => hs ⟨t, ht⟩, loopWith_of_no_step fun t ht => hs ⟨t, (heq s h).trans ht⟩]

/-- Sizes that meet R7 do not change the loop. -/
theorem loopWith_eq_unbounded (hp : p.sizes = some z) (hz : z.Valid) (h : s.InvWithin z) (k : Nat) :
    loopWith p k s = loopWith { p with sizes := none } k s :=
  loopWith_congr (fun _ _ => stepWith_invWithin) (fun _ => stepWith_eq_unbounded hp hz) k h

/-- Without sizes the stop for a state that does not fit does not exist (log 19). -/
theorem stepWith_unbounded_ne_exceedsSizes (h : s.Inv) :
    stepWith { p with sizes := none } s ≠ .fault .exceedsSizes := by
  cases hr : s.run with
  | running =>
    obtain ⟨t, ht⟩ := exists_stepWith (p := { p with sizes := none }) rfl hr (h.pc_le (by simp [hr]))
    simp [ht]
  | halted => simp [stepWith, hr]
  | aborted => simp [stepWith, hr]

end ValidSizes

/-- Settles O18: along an execution of an accepted bytecode every state has the invariant, so it fits the sizes. -/
theorem finitePcAndStackSuffice : Obligations.FinitePcAndStackSuffice := by
  refine ⟨fun p z code hp hz hlen => ?_, fun p z code hp hlen => ?_⟩
  · have hreset : (State.resetWith code).InvWithin z := State.invWithin_resetWith hlen
    have hloop := loopWith_eq_unbounded hp hz hreset
    constructor
    · have haccept : accepts p code = true := by simp [accepts, hp, hlen]
      rw [executeWith, executeWith, if_pos haccept, if_pos (accepts_of_no_sizes rfl code), hloop]
    · intro k
      have hk : (loopWith p k (State.resetWith code)).InvWithin z :=
        loopWith_induction (fun _ _ => stepWith_invWithin) k hreset
      have ⟨hinv, hcode⟩ := hk
      refine ⟨hloop k, ?_, fun ha => ?_⟩
      · rw [stepWith_eq_unbounded hp hz hk]
        exact stepWith_unbounded_ne_exceedsSizes hinv
      · simpa [State.fits] using hinv.fits hz hcode ha
  · have hrefuse : ¬ accepts p code = true := by simp [accepts, hp, hlen]
    rw [executeWith, if_neg hrefuse]

end Sys2Proof.Machine

/-! ### Termination (45_execution_loop.md R156) -/

namespace Sys2Proof.Machine

section Termination
variable {p : Config.Params} (hp : p.truncPush = .opcodeOnly)
include hp

/-- Without sizes, a state that is still Running after `k` steps has passed `k` bytes. -/
theorem le_pc_of_running {s : State} (hs : s.Inv) (hz : p.sizes = none) (k : Nat)
    (hr : (loopWith p k s).run = .running) : k ≤ (loopWith p k s).pc := by
  induction k with
  | zero => exact Nat.zero_le _
  | succ k ih =>
    have hinv : (loopWith p k s).Inv := loopWith_induction (fun _ _ => stepWith_inv) k hs
    have hsplit := loopWith_add (p := p) k 1 s
    by_cases hk : (loopWith p k s).run = .running
    · obtain ⟨t, ht⟩ := exists_stepWith hz hk (hinv.pc_le (by simp [hk]))
      rw [loopWith_succ_of_step ht, loopWith_zero] at hsplit
      rw [hsplit] at hr ⊢
      exact (ih hk).trans_lt (stepWith_pc_lt hp ht hr)
    · rw [hsplit, loopWith_of_not_running hk] at hr
      exact absurd hr hk

/-- Without sizes, no bytecode is still Running after `LEN + 1` steps: `pc` would be past `LEN`. -/
theorem terminal_of_length_lt (hz : p.sizes = none) {code : List Byte} {k : Nat} (hk : code.length + 1 ≤ k) :
    (loopWith p k (State.resetWith code)).Terminal := by
  have hreset := State.resetWith_inv code
  have hinv : (loopWith p k (State.resetWith code)).Inv := loopWith_induction (fun _ _ => stepWith_inv) k hreset
  have hmem : (loopWith p k (State.resetWith code)).mem = Memory.ofBytes code :=
    loopWith_induction (P := fun s => s.mem = Memory.ofBytes code) (fun _ _ hm h => (stepWith_mem h).trans hm) k rfl
  rw [State.terminal_iff]
  intro hr
  have hpassed := le_pc_of_running hp hreset hz k hr
  have hbound := hinv.pc_le (by simp [hr])
  rw [hmem, Memory.ofBytes_len] at hbound
  omega

end Termination

/-- A terminal state has a result (45_execution_loop.md R157). -/
theorem State.Terminal.exists_result {s : State} (h : s.Terminal) : ∃ r, s.result = some r := by
  obtain hr | hr := h
  · exact ⟨.success s.stack, by simp [State.result, hr]⟩
  · exact ⟨.failure, by simp [State.result, hr]⟩

/-- Once ended, an execution stays where it is. -/
theorem loopWith_eq_of_terminal {p : Config.Params} {s : State} {j k : Nat} (h : (loopWith p j s).Terminal)
    (hjk : j ≤ k) : loopWith p k s = loopWith p j s := by
  rw [State.terminal_iff] at h
  obtain ⟨d, rfl⟩ := Nat.exists_eq_add_of_le hjk
  rw [loopWith_add, loopWith_of_not_running h]

/-- An accepted bytecode has ended after `LEN + 1` steps, also under sizes that meet R7. -/
theorem terminal_of_accepts {p : Config.Params} {code : List Byte} (hp : p.truncPush = .opcodeOnly)
    (hz : ∀ z, p.sizes = some z → z.Valid) (ha : accepts p code = true) {k : Nat} (hk : code.length + 1 ≤ k) :
    (loopWith p k (State.resetWith code)).Terminal := by
  cases hsizes : p.sizes with
  | none => exact terminal_of_length_lt hp hsizes hk
  | some z =>
    have hlen : code.length ≤ z.codeMax := by simpa [accepts, hsizes] using ha
    have hp' : ({ p with sizes := none } : Config.Params).truncPush = .opcodeOnly := hp
    rw [loopWith_eq_unbounded hsizes (hz z hsizes) (State.invWithin_resetWith hlen)]
    exact terminal_of_length_lt hp' rfl hk

/-- Settles O52: after `LEN + 1` steps the state is terminal, and from there on the loop does nothing. -/
theorem everyExecutionTerminates : Obligations.EveryExecutionTerminates := by
  have hresult {p : Config.Params} {code : List Byte} (hp : p.truncPush = .opcodeOnly)
      (hz : ∀ z, p.sizes = some z → z.Valid) (ha : accepts p code = true) : ∃ r, executeWith p code = some r := by
    rw [executeWith, if_pos ha]
    exact (terminal_of_accepts hp hz ha le_rfl).exists_result
  refine ⟨fun p code hp hz ha => ⟨fun k hk => ?_, hresult hp hz ha⟩, fun code => ?_⟩
  · exact ⟨terminal_of_accepts hp hz ha hk, loopWith_eq_of_terminal (terminal_of_accepts hp hz ha le_rfl) hk⟩
  · exact hresult rfl (by simp) (accepts_of_no_sizes rfl code)

end Sys2Proof.Machine

/-! ### What a result does not depend on: free values, and bytes never fetched (45_execution_loop.md R157, R161) -/

namespace Sys2Proof.Machine

/-- Two outcomes that change two states in the same one of the four ways a step inside the code has. -/
def SameEffect (s s' : State) (o o' : Host.Outcome State Fault Refusal) : Prop :=
  (o = .next s.halt ∧ o' = .next s'.halt) ∨
  (∃ b, o = .next (s.raiseUnrecognized b) ∧ o' = .next (s'.raiseUnrecognized b)) ∨
  (∃ op, o = .next (s.raiseUnderflow op) ∧ o' = .next (s'.raiseUnderflow op)) ∨
  ∃ len S, o = .next (s.advance len S) ∧ o' = .next (s'.advance len S)

/-- An instruction reads no field but the stack. -/
theorem exec_same_effect (i : Instr) {s s' : State} (hstack : s'.stack = s.stack) :
    SameEffect s s' (exec i s) (exec i s') := by
  by_cases hi : i = .stop
  · subst hi
    exact .inl ⟨exec_stop s, exec_stop s'⟩
  · obtain ⟨f, -, hf⟩ := exec_shape i hi
    obtain ⟨hl, he⟩ | ⟨rest, ops, hs, ho, he⟩ := hf s
    · exact .inr (.inr (.inl ⟨_, he, hf.next_of_underflow (hstack ▸ hl)⟩))
    · exact .inr (.inr (.inr ⟨_, _, he, hf.next_of_append (hstack.trans hs) ho⟩))

/-- The instruction at `pc`; none where the byte is not recognized. -/
def State.fetched (s : State) : Option Instr :=
  (decodeByte (s.mem.byteAt s.pc)).map fun op => (takeOperand op
    (s.mem.bytes (s.pc + 1) (min (Config.maxInstrBytes - 1) (s.mem.len - (s.pc + 1))))).1

/-- Inside the code the step is decided by the fetched instruction and the stack. -/
theorem step_same_effect {s s' : State} (hr : s.run = .running) (hr' : s'.run = .running) (hlt : s.pc < s.mem.len)
    (hlt' : s'.pc < s'.mem.len) (hbyte : s'.mem.byteAt s'.pc = s.mem.byteAt s.pc) (hfetch : s'.fetched = s.fetched)
    (hstack : s'.stack = s.stack) : SameEffect s s' (step s) (step s') := by
  rw [step_fetch hr hlt, step_fetch hr' hlt', hbyte]
  cases hd : decodeByte (s.mem.byteAt s.pc) with
  | none => exact .inr (.inl ⟨_, rfl, rfl⟩)
  | some op =>
    simp only [State.fetched, hbyte, hd, Option.map_some, Option.some.injEq] at hfetch
    simp only [hfetch]
    exact exec_same_effect _ hstack

/-! The counter of the free values -/

/-- Two states that no result tells apart: they differ in the counter of free values, or both are aborted. -/
def State.SameButFree (s s' : State) : Prop :=
  (∃ n, s' = { s with free := n }) ∨ (s.run = .aborted ∧ s'.run = .aborted)

theorem State.SameButFree.result_eq {s s' : State} (h : s.SameButFree s') : s'.result = s.result := by
  obtain ⟨n, rfl⟩ | ⟨ha, ha'⟩ := h
  · rfl
  · simp [State.result, ha, ha']

/-- Of the four ways only the two aborts take a free value and move the counter. -/
theorem SameEffect.sameButFree {s t : State} {n : Nat} {o' : Host.Outcome State Fault Refusal}
    (h : SameEffect s { s with free := n } (.next t) o') : ∃ t', o' = .next t' ∧ t.SameButFree t' := by
  obtain ⟨he, rfl⟩ | ⟨b, he, rfl⟩ | ⟨op, he, rfl⟩ | ⟨len, S, he, rfl⟩ := h <;>
    obtain rfl := Host.Outcome.next.inj he
  · exact ⟨_, rfl, .inl ⟨n, rfl⟩⟩
  · exact ⟨_, rfl, .inr ⟨rfl, rfl⟩⟩
  · exact ⟨_, rfl, .inr ⟨rfl, rfl⟩⟩
  · exact ⟨_, rfl, .inl ⟨n, rfl⟩⟩

/-- A step answers alike whatever the counter. -/
theorem step_sameButFree {s t : State} (n : Nat) (h : step s = .next t) :
    ∃ t', step { s with free := n } = .next t' ∧ t.SameButFree t' := by
  obtain ⟨hr, hpc⟩ := (stepExistsExactlyWhenRunningInsideCode s).mp ⟨t, h⟩
  have heffect : SameEffect s { s with free := n } (step s) (step { s with free := n }) := by
    rcases hpc.eq_or_lt with heq | hlt
    · exact .inl ⟨step_endOfCode hr heq, step_endOfCode hr heq⟩
    · exact step_same_effect hr hr hlt hlt rfl rfl rfl
  rw [h] at heffect
  exact heffect.sameButFree

/-- Settles O54: the two runs stay alike but for the counter until one ends, and an abort ends both. -/
theorem resultIndependentOfFreeValues : Obligations.ResultIndependentOfFreeValues := by
  intro s n k
  refine State.SameButFree.result_eq ?_
  induction k generalizing s n with
  | zero => exact .inl ⟨n, rfl⟩
  | succ k ih =>
    by_cases hs : ∃ t, step s = .next t
    · obtain ⟨t, ht⟩ := hs
      obtain ⟨t', ht', ⟨n', rfl⟩ | ⟨ha, ha'⟩⟩ := step_sameButFree n ht
      · rw [loop_succ_of_step ht, loop_succ_of_step ht']
        exact ih t n'
      · rw [loop_succ_of_step ht, loop_succ_of_step ht', loop_of_not_running (by simp [ha]),
          loop_of_not_running (by simp [ha'])]
        exact .inr ⟨ha, ha'⟩
    · have hs' : ¬ ∃ t, step { s with free := n } = .next t := fun h =>
        hs ((stepExistsExactlyWhenRunningInsideCode s).mpr
          ((stepExistsExactlyWhenRunningInsideCode { s with free := n }).mp h))
      rw [loop_of_no_step fun t ht => hs ⟨t, ht⟩, loop_of_no_step fun t ht => hs' ⟨t, ht⟩]
      exact .inl ⟨n, rfl⟩

/-! The bytes never fetched -/

/-- Two code memories that both go beyond address `p` and hold the same bytes up to it. -/
def Memory.AgreeUpTo (p : Nat) (m m' : Memory) : Prop :=
  p < m.len ∧ p < m'.len ∧ ∀ a ≤ p, m'.byteAt a = m.byteAt a

/-- The bytes up to address `p` are the same. -/
theorem Memory.AgreeUpTo.bytes_eq {p : Nat} {m m' : Memory} (h : Memory.AgreeUpTo p m m') {a n : Nat}
    (hp : a + n ≤ p + 1) : m'.bytes a n = m.bytes a n := by
  obtain ⟨-, -, hbyte⟩ := h
  refine List.map_congr_left fun j hj => hbyte _ ?_
  have hlt : j < n := List.mem_range.mp hj
  omega

/-- The instruction taken behind an opcode byte does not change where the opcode byte and its whole operand lie at
addresses up to `p`. -/
theorem takeOperand_of_agreeUpTo {p pc : Nat} {m m' : Memory} (h : Memory.AgreeUpTo p m m') {op : OpCode}
    (hop : pc + op.immBytes ≤ p) :
    (takeOperand op (m'.bytes (pc + 1) (min (Config.maxInstrBytes - 1) (m'.len - (pc + 1))))).1 =
      (takeOperand op (m.bytes (pc + 1) (min (Config.maxInstrBytes - 1) (m.len - (pc + 1))))).1 := by
  have hbytes := h.bytes_eq (a := pc + 1) (n := op.immBytes) (by omega)
  obtain ⟨hlen, hlen', -⟩ := h
  have hle : op.immBytes ≤ min (Config.maxInstrBytes - 1) (m.len - (pc + 1)) := le_min op.immBytes_le (by omega)
  have hle' : op.immBytes ≤ min (Config.maxInstrBytes - 1) (m'.len - (pc + 1)) := le_min op.immBytes_le (by omega)
  unfold takeOperand
  rw [Memory.bytes_length, Memory.bytes_length, if_pos hle, if_pos hle', Memory.bytes_take _ _ hle,
    Memory.bytes_take _ _ hle', hbytes]
  split <;> rfl

/-- In none of the four ways the code memory matters. -/
theorem SameEffect.withMem {s t : State} {m : Memory} {o' : Host.Outcome State Fault Refusal}
    (h : SameEffect s { s with mem := m } (.next t) o') : o' = .next { t with mem := m } := by
  obtain ⟨he, rfl⟩ | ⟨b, he, rfl⟩ | ⟨op, he, rfl⟩ | ⟨len, S, he, rfl⟩ := h <;>
    obtain rfl := Host.Outcome.next.inj he <;>
    rfl

/-- A step whose instruction lies at addresses up to `p` is the same over every code memory that agrees up to `p`. -/
theorem step_of_agreeUpTo {p : Nat} {s t : State} {m : Memory} (h : Memory.AgreeUpTo p s.mem m) (hpc : s.pc ≤ p)
    (hop : ∀ op, decodeByte (s.mem.byteAt s.pc) = some op → s.pc + op.immBytes ≤ p) (hs : step s = .next t) :
    step { s with mem := m } = .next { t with mem := m } := by
  have ⟨hlen, hlen', hbyte⟩ := h
  obtain ⟨hr, -⟩ := step_cases hs
  have hfetch : ({ s with mem := m } : State).fetched = s.fetched := by
    simp only [State.fetched, hbyte s.pc hpc]
    cases hd : decodeByte (s.mem.byteAt s.pc) with
    | none => rfl
    | some op => exact congrArg some (takeOperand_of_agreeUpTo h (hop op hd))
  have heffect := step_same_effect (s' := { s with mem := m }) hr hr (hpc.trans_lt hlen) (hpc.trans_lt hlen')
    (hbyte s.pc hpc) hfetch rfl
  rw [hs] at heffect
  exact heffect.withMem

/-- A step that leaves the machine Running at an address up to `p`, and is no truncated PUSHn, had its whole instruction
below `p`. -/
theorem operand_below_of_step {p : Nat} {s t : State} (hs : step s = .next t) (hr : t.run = .running) (hp : t.pc ≤ p)
    (hfull : ¬ s.TruncatedPush opmap) {op : OpCode} (hd : decodeByte (s.mem.byteAt s.pc) = some op)
    (hlen : s.pc < s.mem.len) : s.pc + op.immBytes ≤ p := by
  obtain ⟨hrun, -⟩ := step_cases hs
  have hb : s.mem.read? s.pc = some (s.mem.byteAt s.pc) := Memory.read?_eq_some.mpr ⟨hlen, rfl⟩
  by_cases h0 : op.immBytes = 0
  · obtain ⟨hlt, -⟩ := pcAdvancesWithinCode s t hs hr
    omega
  · have hinside : s.pc + 1 + op.immBytes ≤ s.mem.len := by
      by_contra hshort
      exact hfull ⟨hrun, _, op, hb, hd, h0, Nat.not_le.mp hshort⟩
    rw [step_of_fullOperand hrun hb hd h0 hinside, exec_push_some h0] at hs
    obtain rfl := Host.Outcome.next.inj hs
    rw [State.advance_pc] at hp
    omega

/-- A step that ends the execution is an unrecognized byte or an instruction without an immediate: a PUSHn goes on. -/
theorem immBytes_eq_zero_of_terminal {s t : State} (hs : step s = .next t) (ht : t.Terminal) (hlen : s.pc < s.mem.len)
    {op : OpCode} (hd : decodeByte (s.mem.byteAt s.pc) = some op) : op.immBytes = 0 := by
  by_contra hn
  obtain ⟨hrun, -⟩ := step_cases hs
  have hb : s.mem.read? s.pc = some (s.mem.byteAt s.pc) := Memory.read?_eq_some.mpr ⟨hlen, rfl⟩
  rw [State.terminal_iff] at ht
  rw [step_of_decodeByte hrun hb hd] at hs
  obtain ⟨-, -, e⟩ | ⟨-, -, e⟩ := (takeOperand_cases op _).resolve_left fun h => hn h.1 <;> rw [e] at hs
  · rw [exec_push_some hn] at hs
    obtain rfl := Host.Outcome.next.inj hs
    exact ht hrun
  · rw [exec_push_none hn] at hs
    obtain rfl := Host.Outcome.next.inj hs
    exact ht hrun

/-- While an execution stays at addresses up to `p` and meets no truncated PUSHn, it is the same over every code memory
that agrees up to `p`. -/
theorem loop_of_agreeUpTo {p : Nat} {m : Memory} (k : Nat) {s : State} (h : Memory.AgreeUpTo p s.mem m)
    (hr : (loop k s).run = .running) (hp : (loop k s).pc = p)
    (hfull : ∀ j, j < k → ¬ (loop j s).TruncatedPush opmap) :
    s.pc ≤ p ∧ loop k { s with mem := m } = { loop k s with mem := m } := by
  induction k generalizing s with
  | zero => exact ⟨hp.le, rfl⟩
  | succ k ih =>
    have ⟨hlen, _, _⟩ := h
    by_cases hs : ∃ t, step s = .next t
    · obtain ⟨t, ht⟩ := hs
      have hagree : Memory.AgreeUpTo p t.mem m := by rwa [step_mem ht]
      rw [loop_succ_of_step ht] at hr hp
      have htail (j : Nat) (hj : j < k) : ¬ (loop j t).TruncatedPush opmap := by
        rw [← loop_succ_of_step ht]
        exact hfull (j + 1) (Nat.succ_lt_succ hj)
      obtain ⟨htp, hloop⟩ := ih hagree hr hp htail
      have htr : t.run = .running := by
        by_contra hn
        rw [loop_of_not_running hn] at hr
        exact hn hr
      obtain ⟨hlt, -⟩ := pcAdvancesWithinCode s t ht htr
      have hpc : s.pc ≤ p := hlt.le.trans htp
      have hop (op : OpCode) (hd : decodeByte (s.mem.byteAt s.pc) = some op) : s.pc + op.immBytes ≤ p :=
        operand_below_of_step ht htr htp (hfull 0 (Nat.succ_pos k)) hd (hpc.trans_lt hlen)
      have hstep := step_of_agreeUpTo h hpc hop ht
      rw [loop_succ_of_step hstep, loop_succ_of_step ht]
      exact ⟨hpc, hloop⟩
    · have hstuck := loop_of_no_step fun t ht => hs ⟨t, ht⟩
      rw [hstuck] at hr hp
      exact absurd (exists_stepWith defaultParams_sizes hr (hp.trans_le hlen.le)) hs

/-- Two terminal states of one execution are the same. -/
theorem loop_eq_of_terminal {s : State} {j k : Nat} (hj : (loop j s).Terminal) (hk : (loop k s).Terminal) :
    loop k s = loop j s := by
  rcases Nat.le_total j k with h | h
  · exact loopWith_eq_of_terminal hj h
  · exact (loopWith_eq_of_terminal hk h).symm

/-- The result of an execution is that of any terminal state it reaches. -/
theorem execute_eq_of_terminal {code : List Byte} {k : Nat} (h : (loop k (State.resetWith code)).Terminal) :
    execute code = (loop k (State.resetWith code)).result := by
  have hend : (loop (code.length + 1) (State.resetWith code)).Terminal :=
    terminal_of_length_lt defaultParams_truncPush defaultParams_sizes le_rfl
  rw [execute_eq, loop_eq_of_terminal h hend]

/-- Bytecodes that agree on the addresses up to `p` make memories that do. -/
theorem Memory.agreeUpTo_ofBytes {p : Nat} {code code' : List Byte} (hlen : p < code.length) (hlen' : p < code'.length)
    (h : ∀ a, a ≤ p → code[a]? = code'[a]?) : Memory.AgreeUpTo p (Memory.ofBytes code) (Memory.ofBytes code') := by
  refine ⟨by simpa using hlen, by simpa using hlen', fun a ha => ?_⟩
  have hbyte := h a ha
  rw [List.getElem?_eq_getElem (ha.trans_lt hlen), List.getElem?_eq_getElem (ha.trans_lt hlen'),
    Option.some.injEq] at hbyte
  rw [Memory.byteAt_ofBytes (ha.trans_lt hlen), Memory.byteAt_ofBytes (ha.trans_lt hlen'), hbyte]

/-- The step that ends an execution at address `p` is the same over every code memory that agrees up to `p`: it has no
operand bytes. -/
theorem step_of_agreeUpTo_of_terminal {p : Nat} {s t : State} {m : Memory} (h : Memory.AgreeUpTo p s.mem m)
    (hpc : s.pc = p) (hs : step s = .next t) (ht : t.Terminal) :
    step { s with mem := m } = .next { t with mem := m } := by
  have ⟨hlen, _, _⟩ := h
  refine step_of_agreeUpTo h hpc.le (fun op hd => ?_) hs
  rw [immBytes_eq_zero_of_terminal hs ht (hpc.trans_lt hlen) hd, hpc, Nat.add_zero]

/-- Settles O53: up to address `p` the two executions take the same steps, the last one included. -/
theorem resultDependsOnFetchedBytesOnly : Obligations.ResultDependsOnFetchedBytesOnly := by
  intro code code' k p hr hp hlen hterm hfull hlen' hcode
  have hagree := Memory.agreeUpTo_ofBytes hlen hlen' hcode
  obtain ⟨-, hloop⟩ := loop_of_agreeUpTo k (s := State.resetWith code) hagree hr hp hfull
  have hagree' : Memory.AgreeUpTo p (loop k (State.resetWith code)).mem (Memory.ofBytes code') := by
    rwa [loop_mem, State.resetWith_mem]
  have ⟨hinside, _, _⟩ := hagree'
  have hpc : (loop k (State.resetWith code)).pc ≤ (loop k (State.resetWith code)).mem.len := hp.trans_le hinside.le
  obtain ⟨t, ht⟩ := exists_stepWith defaultParams_sizes hr hpc
  have hnext : loop (k + 1) (State.resetWith code) = t := (loop_add k 1 _).trans (loop_succ_of_step ht 0)
  subst hnext
  have hstep := step_of_agreeUpTo_of_terminal hagree' hp ht hterm
  rw [← hloop] at hstep
  have hnext' : loop (k + 1) (State.resetWith code') =
      { loop (k + 1) (State.resetWith code) with mem := Memory.ofBytes code' } :=
    (loop_add k 1 _).trans (loop_succ_of_step hstep 0)
  have hterm' : (loop (k + 1) (State.resetWith code')).Terminal := hnext' ▸ hterm
  rw [execute_eq_of_terminal hterm, execute_eq_of_terminal hterm', hnext']
  rfl

end Sys2Proof.Machine

/-! ### The rejected value of TRUNC_PUSH (40_stack.md R85; 92_eei_decisions.md D2) -/

namespace Sys2Proof.Machine

/-- A PUSHn without its operand that stays put changes nothing. -/
theorem execWith_staysPut {op : OpCode} (hn : op.immBytes ≠ 0) (s : State) :
    execWith .staysPut (op.instr none) s = .next s := by
  have htrunc : isTruncatedPush (op.instr none) = true := by simp [isTruncatedPush, OpCode.instr_imm, hn]
  rw [execWith, if_pos htrunc, truncatedPush_staysPut]

/-- A step that answers its own state is repeated for ever. -/
theorem loopWith_of_step_self {p : Config.Params} {s : State} (h : stepWith p s = .next s) (k : Nat) :
    loopWith p k s = s := by
  induction k with
  | zero => rfl
  | succ k ih => rw [loopWith_succ_of_step h, ih]

/-- Settles O55: the step is the truncated PUSHn that stays put, and the state it answers fits the sizes. -/
theorem truncatedPushStayingPutNeverEnds : Obligations.TruncatedPushStayingPutNeverEnds := by
  rintro p s hp hfits ⟨hr, b, op, hb, hd, hn, hlen⟩
  obtain ⟨hlt, rfl⟩ := Memory.read?_eq_some.mp hb
  have hstep : stepWith p s = .next s := by
    rw [stepWith_fetch hr hlt, hd]
    simp only [takeOperand_bytes_truncated hn hlen, hp, execWith_staysPut hn]
    exact withinSizes_of_fits fun z hz _ => hfits z hz
  exact ⟨hstep, loopWith_of_step_self hstep⟩

end Sys2Proof.Machine

/-! ### The code memory as data (20_memory.md; log 8) -/

namespace Sys2Proof.Machine

/-- A canonical memory lists no address twice. -/
theorem Memory.nodup_addresses {m : Memory} (h : m.wf = true) : (m.cells.map Prod.fst).Nodup := by
  obtain ⟨hsorted, -⟩ := (Memory.wf_iff m).mp h
  exact List.pairwise_map.mpr (hsorted.imp Nat.ne_of_lt)

/-- The cells of a canonical memory are the bytes it reads other than the unlisted one. -/
theorem Memory.mem_cells_iff {m : Memory} (h : m.wf = true) {a : Nat} {b : Byte} :
    (a, b) ∈ m.cells ↔ m.read? a = some b ∧ b ≠ Memory.unlisted := by
  obtain ⟨-, hcells⟩ := (Memory.wf_iff m).mp h
  have hkeys := Memory.nodup_addresses h
  rw [Memory.read?_eq_some, Memory.byteAt_eq, ← lookup_eq_some_iff_mem hkeys]
  constructor
  · intro hl
    obtain ⟨hlt, hne⟩ := hcells (a, b) ((lookup_eq_some_iff_mem hkeys).mp hl)
    exact ⟨⟨hlt, by simp [hl]⟩, hne⟩
  · rintro ⟨⟨-, hget⟩, hne⟩
    cases hl : m.cells.lookup a with
    | none => exact absurd (by simpa [hl] using hget.symm) hne
    | some c => simpa [hl] using hget

/-- `LEN` is the first address without a byte. -/
theorem Memory.len_le_iff {m : Memory} {a : Nat} : m.len ≤ a ↔ m.read? a = none := by
  simp [Memory.read?]

/-- Settles O15: `LEN` and the set of cells are seen by reading, and the cells are in the order of addresses. -/
theorem equalBytesAreEqualMemory : Obligations.EqualBytesAreEqualMemory := by
  intro m m' h h' hread
  have hlen : m.len = m'.len := eq_of_forall_ge_iff fun a => by rw [Memory.len_le_iff, Memory.len_le_iff, hread]
  have hmem (c : Host.Cell) : c ∈ m.cells ↔ c ∈ m'.cells := by
    obtain ⟨a, b⟩ := c
    rw [Memory.mem_cells_iff h, Memory.mem_cells_iff h', hread]
  have hcells : m.cells = m'.cells := by
    obtain ⟨hsorted, -⟩ := (Memory.wf_iff m).mp h
    obtain ⟨hsorted', -⟩ := (Memory.wf_iff m').mp h'
    have hperm : m.cells.Perm m'.cells := (List.perm_ext_iff_of_nodup
      (Memory.nodup_addresses h).of_map (Memory.nodup_addresses h').of_map).mpr hmem
    exact hperm.eq_of_pairwise (fun _ _ _ _ hlt hgt => absurd hlt hgt.not_gt) hsorted hsorted'
  cases m
  cases m'
  simp_all

end Sys2Proof.Machine
